-- ==== Sys2Proof/Word.lean ====
section
/-! DEFINITION. The word types of the SLC block: register words, channel and payload bytes, 64-bit counts, and the two
kinds of sequence of 00_scope.md rule R15. -/

namespace Sys2Proof

/-- A register word: 32 bits (rule R12). -/
abbrev Word := BitVec 32

/-- A channel value or a payload byte: 8 bits (rules R8 and R60). -/
abbrev Byte := BitVec 8

/-- A 64-bit count: LEN, BITCNT, OUTCNT and CAP (rule R12). -/
abbrev Count := BitVec 64

/-- A finite sequence of bits, element 0 first in serial order (rules R15 and R67). -/
abbrev Bits := List Bool

/-- A finite sequence of bytes (rule R15). -/
abbrev Bytes := List Byte

end Sys2Proof
end

