-- ==== Sys2Proof/Syntax.lean ====
section
/-! DEFINITION. The commands of the SLC block, one constructor per row of spec/opcode_table.json. -/

namespace Sys2Proof

/-- A legal command (30_encoding.md rule R91). A command has no operand of its own: every operand comes from a register
(rule R93), and every command is one word (rule R97). -/
inductive Instr where
  /-- BYTES2BITS (40_codec.md rule R113). -/
  | bytes2bits
  /-- BITS2BYTES (40_codec.md rule R114). -/
  | bits2bytes
  /-- SETLSB (40_codec.md rule R115). -/
  | setlsb
  /-- FRAME (41_framer.md rule R133). -/
  | frame
  /-- UNFRAME (41_framer.md rule R134). -/
  | unframe
  /-- EMBED (42_embedder.md rule R153). -/
  | embed
  /-- EXTRACT (43_extractor.md rule R171). -/
  | extract
deriving DecidableEq, Repr

end Sys2Proof
end

