-- ==== Sys2Proof/Decode.lean ====
section
/-! DEFINITION. The command word CMD32 (30_encoding.md rules R90 to R97): the decoder, total on every 32-bit word and
rejecting each illegal word by name, and after it the encoder, from the same opcode map. -/

namespace Sys2Proof

/-- OP, bits [3:0] of a command word (rule R90). -/
def opField (w : Word) : BitVec 4 := w.extractLsb' 0 4

/-- RSVD, bits [31:4] of a command word (rule R90). -/
def rsvdField (w : Word) : BitVec 28 := w.extractLsb' 4 28

/-- Why a command word is illegal (rule R92). -/
inductive DecodeError where
  /-- RSVD is not 0. -/
  | rsvdNonzero
  /-- OP is 0. -/
  | opZero
  /-- OP is 8 to 15. -/
  | opReserved
deriving DecidableEq, Repr

/-- The command a word selects (rule R91), or why it selects none (rule R92). -/
def decode (w : Word) : Except DecodeError Instr :=
  if rsvdField w ≠ 0 then .error .rsvdNonzero
  else
    match (opField w).toNat with
    | 0 => .error .opZero
    | 1 => .ok .bytes2bits
    | 2 => .ok .bits2bytes
    | 3 => .ok .setlsb
    | 4 => .ok .frame
    | 5 => .ok .unframe
    | 6 => .ok .embed
    | 7 => .ok .extract
    | _ => .error .opReserved

/-- The OP column of the opcode map (rule R91). -/
def opcode : Instr → BitVec 4
  | .bytes2bits => 0x1#4
  | .bits2bytes => 0x2#4
  | .setlsb => 0x3#4
  | .frame => 0x4#4
  | .unframe => 0x5#4
  | .embed => 0x6#4
  | .extract => 0x7#4

/-- The word of a command: RSVD is 0 and OP is the command's (rules R90 and R91). -/
def encode (i : Instr) : Word := 0#28 ++ opcode i

/-- The command the decoder reads from an instruction of `nbits` bits numbered as spec/opcode_table.json numbers
them. A command is exactly one 32-bit word (rule R97), and the register port moves whole words, so no byte order arises
(20_memory.md rule R70). A number with a bit above bit 31 is no command word. -/
def decodeTableWord (nbits w : Nat) : Option Instr :=
  if w % 2 ^ nbits < 2 ^ 32 then (decode (BitVec.ofNat 32 (w % 2 ^ nbits))).toOption else none

end Sys2Proof
end

