-- ==== Sys2Proof/Config.lean ====
section
/-! DEFINITION. What an SLC implementation fixes (00_scope.md rules R7 to R13), the memory spaces' names, and the free
values: the constants without a body that stand for the values the spec leaves unspecified. -/

namespace Sys2Proof

/-- The three memory spaces (20_memory.md rule R60). -/
inductive Space where
  | pix
  | pay
  | bit
deriving DecidableEq, Repr

/-- The parameters of one block (rule R13): DIM_W (rule R10) and the three OPEN sizes (rule R11).
PIX_SIZE and PAY_SIZE count bytes, BIT_SIZE counts bits. LATENCY has no field: no rule depends on it (rule R230). -/
structure Config where
  dimW : Nat
  pixSize : Nat
  paySize : Nat
  bitSize : Nat
deriving DecidableEq, Repr

namespace Config

/-- The reference configuration of rule R11. -/
def reference : Config := ⟨16, 4096, 256, 4096⟩

/-- The number of cells of a memory space (rules R11 and R60). -/
def size (c : Config) : Space → Nat
  | .pix => c.pixSize
  | .pay => c.paySize
  | .bit => c.bitSize

/-- HDR_W, the header's width in bits (rule R7). -/
@[simp] abbrev hdrW : Nat := 32

/-- UCH, the number of usable channels of a pixel (rule R8). -/
@[simp] abbrev uch : Nat := 3

/-- MAX_LEN, the longest payload a header can state (41_framer.md rule R132). -/
@[simp] abbrev maxLen : Nat := 2 ^ 32 - 1

/-- The value of the ID register (rules R2 and R24). -/
abbrev idValue : Word := 0x534C4301#32

/-- What a PIX or PAY cell that nothing has written since power-on holds: unspecified (rules R62 and R222).
A free value: one for each cell, the same at every read until the cell is written (notes/assumptions/1.md). -/
opaque powerOnByte : Space → Nat → Byte

/-- What a BIT cell that nothing has written since power-on holds: unspecified (rules R62 and R222).
A free value (notes/assumptions/1.md). -/
opaque powerOnBit : Nat → Bool

/-- The free bytes drawn while the machine runs: `freeByte n a` is what draw `n` gives for address `a`.
Drawn by the reset that abandons a command (rule R221; notes/assumptions/3.md). -/
opaque freeByte : Nat → Nat → Byte

/-- The free bits drawn while the machine runs, for cells of BIT, as `freeByte` for bytes
(notes/assumptions/3.md). -/
opaque freeBit : Nat → Nat → Bool

end Config

end Sys2Proof
end

