-- ==== Sys2Proof/WellFormed.lean ====
section
/-! DEFINITION. Which terms are well formed: every command is, for it has no field; a configuration is when its
parameters lie in the ranges of 00_scope.md rules R10 and R11. -/

namespace Sys2Proof

/-- Every command is well formed: the command word holds no register specifier, no immediate and no mode bit
(30_encoding.md rules R90 and R97), so a command has nothing a check could refuse. -/
def Instr.wf : Instr → Bool
  | .bytes2bits => true
  | .bits2bytes => true
  | .setlsb => true
  | .frame => true
  | .unframe => true
  | .embed => true
  | .extract => true

/-- The parameter ranges of rules R10 and R11. -/
def Config.wf (c : Config) : Bool :=
  decide (1 ≤ c.dimW) && decide (c.dimW ≤ 31) &&
  decide (1 ≤ c.pixSize) && decide (c.pixSize ≤ 2 ^ 34) &&
  decide (1 ≤ c.paySize) && decide (c.paySize ≤ 2 ^ 32 - 1) &&
  decide (1 ≤ c.bitSize) && decide (c.bitSize ≤ 2 ^ 36)

end Sys2Proof
end

