-- ==== Sys2Proof/Machine/State.lean ====
section
/-! DEFINITION. The state of one SLC block (10_state.md rule R46), the inputs that reach it and the records of the
transactions performed, the reasons a step could stop, and the state after reset. -/

namespace Sys2Proof.Machine

/-- The error codes of STATUS.ERR (60_exceptions.md rule R190). Codes 8 to 15 are never produced and have no name. -/
inductive ErrCode where
  | ok
  | framing
  | capacity
  | corrupt
  | tooLarge
  | illegalOp
  | bounds
  | geometry
deriving DecidableEq, Repr

/-- The engine's hidden state ENG (10_state.md rule R43). -/
inductive Eng where
  | idle
  /-- A command is running; `w` is the word accepted. -/
  | busy (w : Word)
deriving DecidableEq, Repr

/-- The cells of a memory space that something has written since power-on, by address. An unlisted address holds no
written value. For PIX and PAY this is a list of `Host.Cell`. -/
abbrev Memory (α : Type) := List (Nat × α)

/-- The registers of the register map (rule R23). -/
inductive Reg where
  | id
  | cmd
  | status
  | inten
  | width
  | height
  | channels
  | lenLo
  | lenHi
  | bitcntLo
  | bitcntHi
  | outcntLo
  | outcntHi
  | lsbIn
  | lsbOut
  | hdr
  | capLo
  | capHi
deriving DecidableEq, Repr

/-- The host's four ports (rules R23 and R61), as in the record form of rule R98. -/
inductive Port where
  | reg
  | mem (sp : Space)
deriving DecidableEq, Repr

/-- The direction of a transaction (rule R98). -/
inductive Dir where
  | r
  | w
deriving DecidableEq, Repr

/-- A transaction's record form `(port, dir, addr, data)` (rule R98). For a read, `data` is the value returned. -/
structure Record where
  port : Port
  dir : Dir
  addr : Nat
  data : Nat
deriving DecidableEq, Repr

/-- What can happen next to the block: one of the host's four transactions (rule R98), a change of the reset input
(70_reset_and_hazards.md rule R220), or the engine's turn (rule R229). -/
inductive Input where
  /-- `WR`: a register write at a byte offset. -/
  | wr (off : BitVec 8) (v : Word)
  /-- `RD`: a register read. -/
  | rd (off : BitVec 8)
  /-- `WRM`: a memory cell write. -/
  | wrm (sp : Space) (a : Nat) (v : Nat)
  /-- `RDM`: a memory cell read. -/
  | rdm (sp : Space) (a : Nat)
  /-- `rst` is asserted. -/
  | rstOn
  /-- `rst` is released. -/
  | rstOff
  /-- The engine's completion step is taken, where it is enabled. -/
  | engine
deriving DecidableEq, Repr

/-- The state of the block. The fields up to `bit` are those of rule R46; `cfg` is constant; the last four are the
model's own: the level of the reset input, the inputs to come, the records of the transactions performed (newest first),
and the number of the next free draw. -/
structure State where
  cfg : Config
  done : Bool
  err : ErrCode
  werr : Bool
  doneIe : Bool
  width : Word
  height : Word
  channels : BitVec 3
  len : Count
  bitcnt : Count
  outcnt : Count
  lsbIn : BitVec 9
  lsbOut : Byte
  hdr : Word
  eng : Eng
  pix : Memory Byte
  pay : Memory Byte
  bit : Memory Bool
  rst : Bool
  pending : List Input
  log : List Record
  draws : Nat
deriving DecidableEq, Repr

/-- The reasons a step stops with a fault. There is none: the block has no trap, an error is a code in STATUS
(60_exceptions.md rule R197), and every host transaction is allowed at all times (rule R199). -/
inductive Fault where
deriving DecidableEq, Repr

/-- The reasons a step is refused. -/
inductive Refusal where
  /-- Raised by `exec` for a command without a meaning; no command is left so. Safe: the machine stops. -/
  | notModelled (mnemonic : String)
deriving DecidableEq, Repr

/-- The state right after the power-on reset of a block with the parameters `c` (rules R44 and R222): every register
field at its reset value, ENG idle, no memory cell written, `rst` released, no input to come. -/
def State.poweredOn (c : Config) : State where
  cfg := c
  done := false
  err := .ok
  werr := false
  doneIe := false
  width := 0
  height := 0
  channels := 3
  len := 0
  bitcnt := 0
  outcnt := 0
  lsbIn := 0
  lsbOut := 0
  hdr := 0
  eng := .idle
  pix := []
  pay := []
  bit := []
  rst := false
  pending := []
  log := []
  draws := 0

/-- The machine right after reset, in the reference configuration of rule R11 (notes/assumptions/2.md). -/
def State.reset : State := State.poweredOn Config.reference

end Sys2Proof.Machine
end

