-- ==== Sys2Proof/Machine/Flags.lean ====
section
/-! DEFINITION. The STATUS word and its flags BUSY, DONE, ERR and WERR (10_state.md rules R26 to R30), the error codes'
numbers (60_exceptions.md rule R190), and the interrupt output (rule R195). -/

namespace Sys2Proof.Machine

/-- The number of an error code in STATUS.ERR (rule R190). -/
def ErrCode.code : ErrCode → BitVec 4
  | .ok => 0
  | .framing => 1
  | .capacity => 2
  | .corrupt => 3
  | .tooLarge => 4
  | .illegalOp => 5
  | .bounds => 6
  | .geometry => 7

/-- STATUS.BUSY is 1 exactly when ENG holds a command (rules R26 and R43). -/
def State.busy (s : State) : Bool :=
  match s.eng with
  | .idle => false
  | .busy _ => true

/-- The STATUS register as the host reads it: BUSY in bit 0, DONE in bit 1, ERR in bits [7:4], WERR in bit 8, every
other bit 0 (rules R23 and R26 to R30). -/
def statusWord (s : State) : Word :=
  0#23 ++ BitVec.ofBool s.werr ++ s.err.code ++ 0#2 ++ BitVec.ofBool s.done ++ BitVec.ofBool s.busy

/-- A host write of STATUS: bit 1 clears DONE, bit 8 clears WERR, and nothing else happens (rule R30). -/
def writeStatus (v : Word) (s : State) : State :=
  { s with done := s.done && !v.getLsbD 1, werr := s.werr && !v.getLsbD 8 }

/-- A host write was dropped because the engine is busy: WERR is set (rule R29). -/
def setWerr (s : State) : State := { s with werr := true }

/-- The interrupt output: `irq = STATUS.DONE AND INTEN.DONE_IE` (rule R195). -/
def irq (s : State) : Bool := s.done && s.doneIe

end Sys2Proof.Machine
end

