-- ==== Sys2Proof/Machine/Operands.lean ====
section
/-! DEFINITION. The operands of the commands, as the registers hold them (30_encoding.md rule R93): the 64-bit counts
and their halves, the grid's geometry and its slots, the two operands of SETLSB. -/

namespace Sys2Proof.Machine

/-- The low half of a 64-bit count, at the lower offset (20_memory.md rule R70). -/
def loHalf (c : Count) : Word := c.extractLsb' 0 32

/-- The high half of a 64-bit count, at offset + 4 (rule R70). -/
def hiHalf (c : Count) : Word := c.extractLsb' 32 32

/-- A count with its low half replaced. -/
def withLo (c : Count) (v : Word) : Count := hiHalf c ++ v

/-- A count with its high half replaced. -/
def withHi (c : Count) (v : Word) : Count := v ++ loHalf c

/-- LEN as a number (10_state.md rule R35). -/
def State.lenNat (s : State) : Nat := s.len.toNat

/-- BITCNT as a number (rule R36). -/
def State.bitcntNat (s : State) : Nat := s.bitcnt.toNat

/-- W, the grid's width in pixels (rule R32). -/
def State.gridW (s : State) : Nat := s.width.toNat

/-- H, the grid's height in pixels (rule R33). -/
def State.gridH (s : State) : Nat := s.height.toNat

/-- CH, the channels per pixel (rule R34). -/
def State.chan (s : State) : Nat := s.channels.toNat

/-- VALUE, bits [7:0] of LSB_IN (rule R38). -/
def State.lsbValue (s : State) : Byte := s.lsbIn.extractLsb' 0 8

/-- BIT, bit 8 of LSB_IN (rule R38). -/
def State.lsbBit (s : State) : Bool := s.lsbIn.getLsbD 8

/-- A value as WIDTH and HEIGHT store it: its low DIM_W bits (rules R32 and R33). -/
def truncDim (c : Config) (v : Word) : Word := BitVec.ofNat 32 (v.toNat % 2 ^ c.dimW)

/-- The capacity of the grid in bits, header and payload together: `W * H * 3` (42_embedder.md rule R150). -/
def capacity (s : State) : Nat := s.gridW * s.gridH * Config.uch

/-- CAP as the 64-bit value the host reads (10_state.md rule R41). -/
def capReg (s : State) : Count := BitVec.ofNat 64 (capacity s)

/-- The geometry check of EMBED and EXTRACT (42_embedder.md rule R151). -/
def geometryOk (s : State) : Bool :=
  (decide (s.chan = 3) || decide (s.chan = 4)) && decide (s.gridW * s.gridH * s.chan ≤ s.cfg.pixSize)

/-- The PIX address of slot `k` in a grid of `ch` channels: `(k div 3) * CH + (k mod 3)` (20_memory.md rule R65). -/
def slotAddr (ch k : Nat) : Nat := k / Config.uch * ch + k % Config.uch

end Sys2Proof.Machine
end

