-- ==== Sys2Proof/Machine/Ops.lean ====
section
/-! DEFINITION. The shared operations of the machine: reading and writing memory cells, the held writes of a command
(00_scope.md rule R17), accepting a command (30_encoding.md rule R94), and the two completions, with an error
(60_exceptions.md rule R191, this block's only form of exception) and without one (rule R192). -/

namespace Sys2Proof.Machine

namespace Memory

/-- The value last written to address `a`, if anything was written there. -/
def find {α : Type} : Memory α → Nat → Option α
  | [], _ => none
  | (b, v) :: m, a => if a = b then some v else find m a

/-- Writes one cell, keeping the addresses rising. -/
def write {α : Type} : Memory α → Nat → α → Memory α
  | [], a, v => [(a, v)]
  | (b, w) :: m, a, v =>
    if b < a then (b, w) :: write m a v
    else if b = a then (a, v) :: m
    else (a, v) :: (b, w) :: m

/-- Writes a list of cells whose addresses differ from one another, so that their order does not matter
(42_embedder.md rule R152). -/
def writeAll {α : Type} (m : Memory α) : List (Nat × α) → Memory α
  | [] => m
  | (a, v) :: cs => write (writeAll m cs) a v

/-- The canonical form of a memory of `size` cells: addresses strictly rising, every one of them a cell of the memory.
An unlisted address holds no written value, so no entry can equal what an unlisted address holds. -/
def wf {α : Type} (m : Memory α) (size : Nat) : Bool :=
  decide ((m.map Prod.fst).Pairwise (· < ·)) && m.all fun c => decide (c.1 < size)

end Memory

/-- The byte a PIX cell holds: the last value written, or the unspecified value of a cell never written
(20_memory.md rule R62). -/
def State.pixAt (s : State) (a : Nat) : Byte := (Memory.find s.pix a).getD (Config.powerOnByte .pix a)

/-- The byte a PAY cell holds, as `pixAt`. -/
def State.payAt (s : State) (a : Nat) : Byte := (Memory.find s.pay a).getD (Config.powerOnByte .pay a)

/-- The bit a BIT cell holds, as `pixAt`. -/
def State.bitAt (s : State) (a : Nat) : Bool := (Memory.find s.bit a).getD (Config.powerOnBit a)

/-- `MemRead(S, 0, n)`: the first `n` cells of a space, given its reading of one cell (00_scope.md rule R16). -/
def memRead {α : Type} (cell : Nat → α) (n : Nat) : List α := (List.range n).map cell

/-- The held cells of `MemWrite(S, a, n, v)`: consecutive addresses from `a` (rule R16). -/
def cellsFrom {α : Type} : Nat → List α → List (Nat × α)
  | _, [] => []
  | a, v :: vs => (a, v) :: cellsFrom (a + 1) vs

/-- The held writes of a command: memory cells of each space, and the result registers it writes
(00_scope.md rule R17). -/
structure Held where
  pix : List (Nat × Byte) := []
  pay : List (Nat × Byte) := []
  bit : List (Nat × Bool) := []
  outcnt : Option Count := none
  hdr : Option Word := none
  lsbOut : Option Byte := none
deriving DecidableEq, Repr

/-- Performs every held write of a command (60_exceptions.md rule R192). -/
def perform (h : Held) (s : State) : State :=
  { s with
    pix := Memory.writeAll s.pix h.pix
    pay := Memory.writeAll s.pay h.pay
    bit := Memory.writeAll s.bit h.bit
    outcnt := h.outcnt.getD s.outcnt
    hdr := h.hdr.getD s.hdr
    lsbOut := h.lsbOut.getD s.lsbOut }

/-- Accepting command word `w`: DONE and ERR are cleared and the engine holds the word (30_encoding.md rule R94). -/
def accept (w : Word) (s : State) : State := { s with done := false, err := .ok, eng := .busy w }

/-- Completion with an error: every held write is discarded, and STATUS tells the code (60_exceptions.md rule R191).
This is all that an exception of this block does: control goes nowhere and no mode changes (rule R197). -/
def completeErr (e : ErrCode) (s : State) : State := { s with err := e, done := true, eng := .idle }

/-- Completion without an error: every held write is performed (rule R192). -/
def completeOk (h : Held) (s : State) : State := { perform h s with err := .ok, done := true, eng := .idle }

/-- The completion of a command whose pseudocode ends with held writes or raises an error (rules R191 and R192). -/
def complete (r : Except ErrCode Held) (s : State) : State :=
  match r with
  | .error e => completeErr e s
  | .ok h => completeOk h s

/-- The host's acknowledgement of a completion, the nearest thing to a return from an exception here: a write of STATUS
with bit 1 set (rule R198). -/
def acknowledge (s : State) : State := writeStatus 2#32 s

end Sys2Proof.Machine
end

