-- ==== Sys2Proof/Machine/Codec.lean ====
section
/-! DEFINITION. The BitStream codec (40_codec.md): its three pure functions, and the commands BYTES2BITS, BITS2BYTES and
SETLSB. Each command's checks and held writes are a plan, and its meaning is the plan's completion. -/

namespace Sys2Proof.Machine

/-- The eight bits of a byte, bit 7 first (rules R68 and R110). -/
def byteBits (b : Byte) : Bits := (List.range 8).map fun j => b.getLsbD (7 - j)

/-- `bytesToBits` (rule R110). -/
def bytesToBits : Bytes → Bits
  | [] => []
  | b :: bs => byteBits b ++ bytesToBits bs

/-- Packs each group of 8 bits into a byte, the first bit of the group the most significant (rule R111). -/
def packBytes : Bits → Bytes
  | b7 :: b6 :: b5 :: b4 :: b3 :: b2 :: b1 :: b0 :: rest =>
    BitVec.ofNat 8 (b7.toNat * 128 + b6.toNat * 64 + b5.toNat * 32 + b4.toNat * 16 + b3.toNat * 8 + b2.toNat * 4 +
      b1.toNat * 2 + b0.toNat) :: packBytes rest
  | _ => []

/-- `bitsToBytes`: fails with FRAMING when the bit count is not a multiple of 8 (rule R111). -/
def bitsToBytes (s : Bits) : Except ErrCode Bytes :=
  if s.length % 8 ≠ 0 then .error .framing else .ok (packBytes s)

/-- `setLsb`: bit 0 of a byte replaced (rule R112). -/
def setLsb (v : Byte) (b : Bool) : Byte := (v &&& 0xFE#8) ||| (BitVec.ofBool b).setWidth 8

/-- The checks and held writes of BYTES2BITS (rule R113). -/
def planBytes2bits (s : State) : Except ErrCode Held :=
  if s.cfg.paySize < s.lenNat ∨ s.cfg.bitSize < 8 * s.lenNat then .error .bounds
  else
    .ok { bit := cellsFrom 0 (bytesToBits (memRead s.payAt s.lenNat))
          outcnt := some (BitVec.ofNat 64 (8 * s.lenNat)) }

/-- The checks and held writes of BITS2BYTES (rule R114). -/
def planBits2bytes (s : State) : Except ErrCode Held :=
  if s.cfg.bitSize < s.bitcntNat then .error .bounds
  else if s.bitcntNat % 8 ≠ 0 then .error .framing
  else if s.cfg.paySize < s.bitcntNat / 8 then .error .bounds
  else
    (bitsToBytes (memRead s.bitAt s.bitcntNat)).map fun out =>
      { pay := cellsFrom 0 out, outcnt := some (BitVec.ofNat 64 (s.bitcntNat / 8)) }

/-- The held write of SETLSB, which has no check (rule R115). -/
def planSetlsb (s : State) : Except ErrCode Held := .ok { lsbOut := some (setLsb s.lsbValue s.lsbBit) }

/-- BYTES2BITS (rule R113). -/
def execBytes2bits (s : State) : Host.Outcome State Fault Refusal := .next (complete (planBytes2bits s) s)

/-- BITS2BYTES (rule R114). -/
def execBits2bytes (s : State) : Host.Outcome State Fault Refusal := .next (complete (planBits2bytes s) s)

/-- SETLSB (rule R115). -/
def execSetlsb (s : State) : Host.Outcome State Fault Refusal := .next (complete (planSetlsb s) s)

end Sys2Proof.Machine
end

