-- ==== Sys2Proof/Machine/Framer.lean ====
section
/-! DEFINITION. The payload framer (41_framer.md): the header functions, `frameBits` and `unframeBits`, and the commands
FRAME and UNFRAME. -/

namespace Sys2Proof.Machine

/-- A 32-bit length as four bytes, most significant first (rules R69 and R130). -/
def be32 (n : Nat) : Bytes :=
  [BitVec.ofNat 8 (n / 2 ^ 24), BitVec.ofNat 8 (n / 2 ^ 16), BitVec.ofNat 8 (n / 2 ^ 8), BitVec.ofNat 8 n]

/-- The header's value: the sum of `s[j] * 2^(31-j)` over the first 32 bits (rule R130). It is used only where
`len(s) >= 32`. -/
def hdrValue (s : Bits) : Nat :=
  ((List.range Config.hdrW).map fun j => (s.getD j false).toNat * 2 ^ (31 - j)).sum

/-- `unframeBits` (rule R131). -/
def unframeBits (s : Bits) : Except ErrCode Bytes :=
  if s.length < Config.hdrW then .error .corrupt
  else if s.length < Config.hdrW + 8 * hdrValue s then .error .corrupt
  else bitsToBytes ((s.drop Config.hdrW).take (8 * hdrValue s))

/-- `frameBits` (rule R132). -/
def frameBits (p : Bytes) : Except ErrCode Bits :=
  if Config.maxLen < p.length then .error .tooLarge else .ok (bytesToBits (be32 p.length ++ p))

/-- The checks and held writes of FRAME (rule R133). -/
def planFrame (s : State) : Except ErrCode Held :=
  if Config.maxLen < s.lenNat then .error .tooLarge
  else if s.cfg.paySize < s.lenNat ∨ s.cfg.bitSize < Config.hdrW + 8 * s.lenNat then .error .bounds
  else
    (frameBits (memRead s.payAt s.lenNat)).map fun bits =>
      { bit := cellsFrom 0 bits
        outcnt := some (BitVec.ofNat 64 (Config.hdrW + 8 * s.lenNat))
        hdr := some (BitVec.ofNat 32 s.lenNat) }

/-- What UNFRAME and EXTRACT do with the framed bits they have read: the checks of the header and of the payload's
destination, then the held writes of the payload (rules R134 and R171). -/
def planPayload (c : Config) (bits : Bits) : Except ErrCode Held :=
  if bits.length < Config.hdrW then .error .corrupt
  else if bits.length < Config.hdrW + 8 * hdrValue bits then .error .corrupt
  else if c.paySize < hdrValue bits then .error .bounds
  else
    (unframeBits bits).map fun out =>
      { pay := cellsFrom 0 out
        outcnt := some (BitVec.ofNat 64 (hdrValue bits))
        hdr := some (BitVec.ofNat 32 (hdrValue bits)) }

/-- The checks and held writes of UNFRAME (rule R134). -/
def planUnframe (s : State) : Except ErrCode Held :=
  if s.cfg.bitSize < s.bitcntNat then .error .bounds
  else planPayload s.cfg (memRead s.bitAt s.bitcntNat)

/-- FRAME (rule R133). -/
def execFrame (s : State) : Host.Outcome State Fault Refusal := .next (complete (planFrame s) s)

/-- UNFRAME (rule R134). -/
def execUnframe (s : State) : Host.Outcome State Fault Refusal := .next (complete (planUnframe s) s)

end Sys2Proof.Machine
end

