-- ==== Sys2Proof/Machine/Embedder.lean ====
section
/-! DEFINITION. The channel embedder (42_embedder.md): the distributor and the command EMBED. -/

namespace Sys2Proof.Machine

/-- The distributor's held cells for the bits from slot `k` on: each slot's byte with its LSB replaced (rule R152).
The bytes are those of the state at acceptance (00_scope.md rule R17), and no two slots share a cell. -/
def distribute (s : State) : Nat → Bits → List (Nat × Byte)
  | _, [] => []
  | k, b :: bs =>
    (slotAddr s.chan k, setLsb (s.pixAt (slotAddr s.chan k)) b) :: distribute s (k + 1) bs

/-- The checks and held writes of EMBED (rule R153). -/
def planEmbed (s : State) : Except ErrCode Held :=
  if geometryOk s = false then .error .geometry
  else if Config.maxLen < s.lenNat then .error .tooLarge
  else if s.cfg.paySize < s.lenNat then .error .bounds
  else if capacity s < Config.hdrW + 8 * s.lenNat then .error .capacity
  else
    (frameBits (memRead s.payAt s.lenNat)).map fun bits =>
      { pix := distribute s 0 bits
        outcnt := some (BitVec.ofNat 64 (Config.hdrW + 8 * s.lenNat))
        hdr := some (BitVec.ofNat 32 s.lenNat) }

/-- EMBED (rule R153). -/
def execEmbed (s : State) : Host.Outcome State Fault Refusal := .next (complete (planEmbed s) s)

end Sys2Proof.Machine
end

