-- ==== Sys2Proof/Machine/Extractor.lean ====
section
/-! DEFINITION. The channel extractor (43_extractor.md): the collector and the command EXTRACT. -/

namespace Sys2Proof.Machine

/-- The collector: the LSB of every slot, in slot order (rule R170). -/
def collect (s : State) : Bits :=
  (List.range (capacity s)).map fun k => (s.pixAt (slotAddr s.chan k)).getLsbD 0

/-- The checks and held writes of EXTRACT (rule R171). -/
def planExtract (s : State) : Except ErrCode Held :=
  if geometryOk s = false then .error .geometry else planPayload s.cfg (collect s)

/-- EXTRACT (rule R171). -/
def execExtract (s : State) : Host.Outcome State Fault Refusal := .next (complete (planExtract s) s)

end Sys2Proof.Machine
end

