-- ==== Sys2Proof/Machine/Dispatch.lean ====
section
/-! DEFINITION. The dispatch of a legal command to its meaning: the completion step of the command from the state in
which the engine holds it (60_exceptions.md rules R191 and R192). -/

namespace Sys2Proof.Machine

def exec (i : Instr) (s : State) : Host.Outcome State Fault Refusal :=
  match i with
  | .bytes2bits => Sys2Proof.Machine.execBytes2bits s
  | .bits2bytes => Sys2Proof.Machine.execBits2bytes s
  | .setlsb => Sys2Proof.Machine.execSetlsb s
  | .frame => Sys2Proof.Machine.execFrame s
  | .unframe => Sys2Proof.Machine.execUnframe s
  | .embed => Sys2Proof.Machine.execEmbed s
  | .extract => Sys2Proof.Machine.execExtract s

end Sys2Proof.Machine
end

