-- ==== Sys2Proof/Machine/Ports.lean ====
section
/-! DEFINITION. The host's ports: the register port with its map (10_state.md rules R23 to R42), and the three memory
ports (20_memory.md rules R61 and R82). -/

namespace Sys2Proof.Machine

/-- The register at a byte offset, bits [1:0] of the offset ignored (rule R23). -/
def Reg.ofOffset (off : BitVec 8) : Option Reg :=
  match (off &&& 0xFC#8).toNat with
  | 0x00 => some .id
  | 0x04 => some .cmd
  | 0x08 => some .status
  | 0x0C => some .inten
  | 0x10 => some .width
  | 0x14 => some .height
  | 0x18 => some .channels
  | 0x1C => some .lenLo
  | 0x20 => some .lenHi
  | 0x24 => some .bitcntLo
  | 0x28 => some .bitcntHi
  | 0x2C => some .outcntLo
  | 0x30 => some .outcntHi
  | 0x34 => some .lsbIn
  | 0x38 => some .lsbOut
  | 0x3C => some .hdr
  | 0x40 => some .capLo
  | 0x44 => some .capHi
  | _ => none

/-- The byte offset of a register (the map of rule R23). -/
def Reg.offset : Reg → BitVec 8
  | .id => 0x00
  | .cmd => 0x04
  | .status => 0x08
  | .inten => 0x0C
  | .width => 0x10
  | .height => 0x14
  | .channels => 0x18
  | .lenLo => 0x1C
  | .lenHi => 0x20
  | .bitcntLo => 0x24
  | .bitcntHi => 0x28
  | .outcntLo => 0x2C
  | .outcntHi => 0x30
  | .lsbIn => 0x34
  | .lsbOut => 0x38
  | .hdr => 0x3C
  | .capLo => 0x40
  | .capHi => 0x44

/-- The guarded registers (rule R42). -/
def Reg.guarded : Reg → Bool
  | .cmd | .width | .height | .channels | .lenLo | .lenHi | .bitcntLo | .bitcntHi | .lsbIn => true
  | .id | .status | .inten | .outcntLo | .outcntHi | .lsbOut | .hdr | .capLo | .capHi => false

/-- What a register reads as, reserved fields 0 (rules R23 to R41). -/
def readReg (s : State) : Reg → Word
  | .id => Config.idValue
  | .cmd => 0
  | .status => statusWord s
  | .inten => (BitVec.ofBool s.doneIe).setWidth 32
  | .width => s.width
  | .height => s.height
  | .channels => s.channels.setWidth 32
  | .lenLo => loHalf s.len
  | .lenHi => hiHalf s.len
  | .bitcntLo => loHalf s.bitcnt
  | .bitcntHi => hiHalf s.bitcnt
  | .outcntLo => loHalf s.outcnt
  | .outcntHi => hiHalf s.outcnt
  | .lsbIn => s.lsbIn.setWidth 32
  | .lsbOut => s.lsbOut.setWidth 32
  | .hdr => s.hdr
  | .capLo => loHalf (capReg s)
  | .capHi => hiHalf (capReg s)

/-- What a write of `v` to a register stores where nothing guards it (rules R23 to R38): a write of CMD starts a command,
a write of STATUS clears flags, a write of a read-only register is ignored. -/
def storeReg (v : Word) (s : State) : Reg → State
  | .id => s
  | .cmd => accept v s
  | .status => writeStatus v s
  | .inten => { s with doneIe := v.getLsbD 0 }
  | .width => { s with width := truncDim s.cfg v }
  | .height => { s with height := truncDim s.cfg v }
  | .channels => { s with channels := v.setWidth 3 }
  | .lenLo => { s with len := withLo s.len v }
  | .lenHi => { s with len := withHi s.len v }
  | .bitcntLo => { s with bitcnt := withLo s.bitcnt v }
  | .bitcntHi => { s with bitcnt := withHi s.bitcnt v }
  | .outcntLo => s
  | .outcntHi => s
  | .lsbIn => { s with lsbIn := v.setWidth 9 }
  | .lsbOut => s
  | .hdr => s
  | .capLo => s
  | .capHi => s

/-- A host write to a register: dropped with WERR set where the register is guarded and the engine busy
(rules R42 and R95). -/
def writeReg (r : Reg) (v : Word) (s : State) : State :=
  if s.busy && r.guarded then setWerr s else storeReg v s r

/-- The register port's read: 0 where no register is (rule R23). -/
def portRead (off : BitVec 8) (s : State) : Word :=
  match Reg.ofOffset off with
  | none => 0
  | some r => readReg s r

/-- The register port's write: ignored where no register is (rule R23). -/
def portWrite (off : BitVec 8) (v : Word) (s : State) : State :=
  match Reg.ofOffset off with
  | none => s
  | some r => writeReg r v s

/-- The value of a memory cell as the host reads it: a byte, or a bit as 0 or 1 (20_memory.md rule R60). -/
def cellNat (sp : Space) (a : Nat) (s : State) : Nat :=
  match sp with
  | .pix => (s.pixAt a).toNat
  | .pay => (s.payAt a).toNat
  | .bit => (s.bitAt a).toNat

/-- Stores `v[7:0]` in a byte cell, `v[0]` in a bit cell (rule R61). -/
def storeCell (sp : Space) (a v : Nat) (s : State) : State :=
  match sp with
  | .pix => { s with pix := Memory.write s.pix a (BitVec.ofNat 8 v) }
  | .pay => { s with pay := Memory.write s.pay a (BitVec.ofNat 8 v) }
  | .bit => { s with bit := Memory.write s.bit a (v.testBit 0) }

/-- `RDM S[a]`: 0 while the engine is busy (rule R82) and 0 at an address outside the space (rule R61). -/
def memPortRead (sp : Space) (a : Nat) (s : State) : Nat :=
  if s.busy then 0 else if s.cfg.size sp ≤ a then 0 else cellNat sp a s

/-- `WRM S[a], v`: dropped with WERR set while the engine is busy (rule R82); ignored, with no flag set, at an address
outside the space (rule R61). -/
def memPortWrite (sp : Space) (a v : Nat) (s : State) : State :=
  if s.busy then setWerr s else if s.cfg.size sp ≤ a then s else storeCell sp a v s

end Sys2Proof.Machine
end

