-- ==== Sys2Proof/Machine/Reset.lean ====
section
/-! DEFINITION. The reset input (70_reset_and_hazards.md rules R220, R221 and R231): the registers' reset values, and
what becomes of the memory cells of a command that the reset abandons. -/

namespace Sys2Proof.Machine

/-- The checks and held writes of a command. -/
def plan : Instr → State → Except ErrCode Held
  | .bytes2bits => planBytes2bits
  | .bits2bytes => planBits2bytes
  | .setlsb => planSetlsb
  | .frame => planFrame
  | .unframe => planUnframe
  | .embed => planEmbed
  | .extract => planExtract

/-- What command word `w` would write, and nothing for an illegal word or where a check raises an error. Its cells are
the write set of rule R221: while the engine is busy no operand and no memory cell changes, so the state holds what it
held at acceptance. -/
def heldOf (w : Word) (s : State) : Held :=
  match decode w with
  | .error _ => {}
  | .ok i =>
    match plan i s with
    | .error _ => {}
    | .ok h => h

/-- The abandoned command's write set takes unspecified values, a free draw for each cell (rule R221). -/
def abandon (w : Word) (s : State) : State :=
  { s with
    pix := Memory.writeAll s.pix ((heldOf w s).pix.map fun c => (c.1, Config.freeByte s.draws c.1))
    pay := Memory.writeAll s.pay ((heldOf w s).pay.map fun c => (c.1, Config.freeByte s.draws c.1))
    bit := Memory.writeAll s.bit ((heldOf w s).bit.map fun c => (c.1, Config.freeBit s.draws c.1))
    draws := s.draws + 1 }

/-- What a reset does to memory: nothing, unless a command is in progress (rule R221). -/
def resetMemory (s : State) : State :=
  match s.eng with
  | .idle => s
  | .busy w => abandon w s

/-- Every register field at its reset value and ENG idle (10_state.md rule R44). -/
def resetRegisters (s : State) : State :=
  { s with
    done := false
    err := .ok
    werr := false
    doneIe := false
    width := 0
    height := 0
    channels := 3
    len := 0
    bitcnt := 0
    outcnt := 0
    lsbIn := 0
    lsbOut := 0
    hdr := 0
    eng := .idle }

/-- `rst` is asserted: the registers and the engine are reset, a command in progress is abandoned (rule R220). -/
def assertRst (s : State) : State := { resetRegisters (resetMemory s) with rst := true }

/-- `rst` is released. -/
def releaseRst (s : State) : State := { s with rst := false }

end Sys2Proof.Machine
end

