-- ==== Sys2Proof/Machine/Engine.lean ====
section
/-! DEFINITION. The turns of the two agents (10_state.md rule R20): the engine's completion step, and the host's
transactions and reset input. -/

namespace Sys2Proof.Machine

/-- The engine's turn on the word it holds: a legal word's command completes, an illegal word completes with ILLEGAL_OP
and nothing else (30_encoding.md rule R92). -/
def completeWord (w : Word) (s : State) : Host.Outcome State Fault Refusal :=
  match decode w with
  | .ok i => exec i s
  | .error _ => .next (completeErr .illegalOp s)

/-- The engine's turn. The completion step is enabled when ENG holds a command and `rst` is not asserted
(70_reset_and_hazards.md rule R229); otherwise the engine does nothing. -/
def engineTurn (s : State) : Host.Outcome State Fault Refusal :=
  match s.rst, s.eng with
  | false, .busy w => completeWord w s
  | _, _ => .next s

/-- A transaction performed, put on the log in its record form (30_encoding.md rule R98). -/
def record (r : Record) (s : State) : State := { s with log := r :: s.log }

/-- A register read. While `rst` is held it returns the reset value (70_reset_and_hazards.md rule R220). -/
def hostRead (off : BitVec 8) (s : State) : Word := portRead off (if s.rst then resetRegisters s else s)

/-- What an input does to the block, but for the engine's turn. While `rst` is held a transaction has no effect
(70_reset_and_hazards.md rule R220), and a memory read answers as at any other moment (20_memory.md rules R61 and R77;
notes/assumptions/5.md). -/
def hostTurn (i : Input) (s : State) : State :=
  match i with
  | .wr off v => record ⟨.reg, .w, off.toNat, v.toNat⟩ (if s.rst then s else portWrite off v s)
  | .rd off => record ⟨.reg, .r, off.toNat, (hostRead off s).toNat⟩ s
  | .wrm sp a v => record ⟨.mem sp, .w, a, v⟩ (if s.rst then s else memPortWrite sp a v s)
  | .rdm sp a => record ⟨.mem sp, .r, a, memPortRead sp a s⟩ s
  | .rstOn => assertRst s
  | .rstOff => releaseRst s
  | .engine => s

/-- The next input to come is taken off. -/
def dropInput (s : State) : State := { s with pending := s.pending.tail }

/-- The engine holds command word `w` as if it had just been accepted, and the next turn is the engine's. -/
def holdWord (w : Word) (s : State) : State :=
  { accept w s with rst := false, pending := .engine :: s.pending }

end Sys2Proof.Machine
end

