-- ==== Sys2Proof/Machine/Step.lean ====
section
/-! DEFINITION. One step of the block: the next input to come is taken, in the order `pending` gives, or the engine's turn
where none is to come. -/

namespace Sys2Proof.Machine

/-- One step. Host transactions happen one at a time, in the host's order (20_memory.md rule R77). Where the completion
step falls among them is given by `pending`; when no input is to come, the engine's turn is taken, so an accepted command
completes (70_reset_and_hazards.md rule R229). An idle block with no input to come waits. -/
def step (s : State) : Host.Outcome State Fault Refusal :=
  match s.pending with
  | [] => engineTurn s
  | .engine :: _ => engineTurn (dropInput s)
  | i :: _ => .next (hostTurn i (dropInput s))

/-- `s` with the command word of `nbits` bits numbered as in spec/opcode_table.json held by the engine, accepted and not
yet complete, and the engine's turn next: the block fetches nothing (10_state.md rule R22), so this stands for the host's
write of CMD (notes/assumptions/6.md). -/
def State.withFetchWord (s : State) (nbits w : Nat) : State :=
  holdWord (BitVec.ofNat 32 (w % 2 ^ nbits)) s

end Sys2Proof.Machine
end

