-- ==== Sys2Proof/Machine/HostProgram.lean ====
section
/-! DEFINITION. The host's notation (30_encoding.md rules R98 to R101): the pseudo-instructions as the inputs they stand
for. BNZ and B are control flow of the host, not transactions of the block (rule R98). -/

namespace Sys2Proof.Machine

/-- `WR <reg>, <v>` (rule R98). -/
def hostWR (r : Reg) (v : Word) : List Input := [.wr r.offset v]

/-- `RD <reg>` (rule R98). -/
def hostRD (r : Reg) : List Input := [.rd r.offset]

/-- `CMD <mnemonic>` stands for `WR CMD, <OP of mnemonic>` (rule R99). -/
def hostCMD (i : Instr) : List Input := hostWR .cmd (encode i)

/-- One run of `WAIT` (rule R100) in which `polls` reads of STATUS come before the engine's turn: the loop polls while
BUSY = 1, and its last read is the one that finds BUSY = 0. The number of polls is not fixed
(notes/assumptions/4.md). -/
def hostWAIT (polls : Nat) : List Input := List.replicate polls (.rd Reg.status.offset) ++ [.engine, .rd Reg.status.offset]

/-- `RUN <mnemonic>` stands for `CMD <mnemonic>` followed by `WAIT` (rule R101). -/
def hostRUN (i : Instr) (polls : Nat) : List Input := hostCMD i ++ hostWAIT polls

/-- `WR64 LEN, <v>` (rule R101). -/
def hostWR64Len (v : Nat) : List Input :=
  hostWR .lenLo (BitVec.ofNat 32 (v % 2 ^ 32)) ++ hostWR .lenHi (BitVec.ofNat 32 (v / 2 ^ 32))

/-- `WR64 BITCNT, <v>` (rule R101). -/
def hostWR64Bitcnt (v : Nat) : List Input :=
  hostWR .bitcntLo (BitVec.ofNat 32 (v % 2 ^ 32)) ++ hostWR .bitcntHi (BitVec.ofNat 32 (v / 2 ^ 32))

/-- `RD64 OUTCNT` (rule R101). -/
def hostRD64Outcnt : List Input := hostRD .outcntLo ++ hostRD .outcntHi

/-- `RD64 CAP` (rule R101). -/
def hostRD64Cap : List Input := hostRD .capLo ++ hostRD .capHi

/-- The number two register reads combine to: HI × 2^32 + LO (rule R101). -/
def combine64 (lo hi : Word) : Nat := hi.toNat * 2 ^ 32 + lo.toNat

/-- `LOADM <S>, <a>, [v0, v1, ...]` (rule R101). -/
def hostLOADM (sp : Space) (a : Nat) : List Nat → List Input
  | [] => []
  | v :: vs => .wrm sp a v :: hostLOADM sp (a + 1) vs

end Sys2Proof.Machine
end

