-- ==== Sys2Proof/Safety.lean ====
section
/-! DEFINITION. What holds of a block in every state a run reaches, and the words the statements use. -/

namespace Sys2Proof.Machine

/-- The invariant of the block. -/
structure State.Inv (s : State) : Prop where
  /-- The parameters lie in the ranges of 00_scope.md rules R10 and R11. -/
  cfg : s.cfg.wf = true
  /-- Each memory is in its canonical form, and lists no address outside its space. -/
  pix : Memory.wf s.pix s.cfg.pixSize = true
  pay : Memory.wf s.pay s.cfg.paySize = true
  bit : Memory.wf s.bit s.cfg.bitSize = true
  /-- WIDTH and HEIGHT hold DIM_W-bit values (10_state.md rules R32 and R33). -/
  width : s.width.toNat < 2 ^ s.cfg.dimW
  height : s.height.toNat < 2 ^ s.cfg.dimW
  /-- While a command runs, DONE and ERR are 0 (10_state.md rules R27 and R28). -/
  busy : s.busy = true → s.done = false ∧ s.err = .ok
  /-- While `rst` is held, every register field has its reset value and ENG is idle
  (70_reset_and_hazards.md rule R220). -/
  held : s.rst = true → resetRegisters s = s

/-! ## Turns -/

/-- The engine's turn is next and its completion step is enabled: ENG holds `w`, `rst` is not asserted, and no input
comes first (70_reset_and_hazards.md rule R229). -/
def State.aboutToComplete (s : State) (w : Word) : Prop :=
  s.rst = false ∧ s.eng = .busy w ∧ (s.pending = [] ∨ ∃ rest, s.pending = .engine :: rest)

/-- A host transaction: a read or a write at one of the four ports (30_encoding.md rule R98). -/
def Input.isTransaction : Input → Bool
  | .wr _ _ | .rd _ | .wrm _ _ _ | .rdm _ _ => true
  | .rstOn | .rstOff | .engine => false

/-! ## What the host's transactions do, in one step -/

/-- `RD` at offset `off` returns `v` and changes nothing. -/
def State.reads (s : State) (off : BitVec 8) (v : Nat) : Prop :=
  ∀ rest, step { s with pending := .rd off :: rest } =
    .next { s with pending := rest, log := ⟨.reg, .r, off.toNat, v⟩ :: s.log }

/-- `WR` of `v` at offset `off` leaves the block in state `t`, but for the inputs to come and the log. -/
def State.writes (s : State) (off : BitVec 8) (v : Word) (t : State) : Prop :=
  ∀ rest, step { s with pending := .wr off v :: rest } =
    .next { t with pending := rest, log := ⟨.reg, .w, off.toNat, v.toNat⟩ :: s.log }

/-- `RDM S[a]` returns `v` and changes nothing. -/
def State.readsCell (s : State) (sp : Space) (a v : Nat) : Prop :=
  ∀ rest, step { s with pending := .rdm sp a :: rest } =
    .next { s with pending := rest, log := ⟨.mem sp, .r, a, v⟩ :: s.log }

/-- `WRM S[a], v` leaves the block in state `t`, but for the inputs to come and the log. -/
def State.writesCell (s : State) (sp : Space) (a v : Nat) (t : State) : Prop :=
  ∀ rest, step { s with pending := .wrm sp a v :: rest } =
    .next { t with pending := rest, log := ⟨.mem sp, .w, a, v⟩ :: s.log }

/-! ## Completions -/

/-- The state after a completion without an error, before the command's writes are counted (60_exceptions.md rule
R192). -/
def State.completed (s : State) : State := { s with done := true, err := .ok, eng := .idle }

/-- The state after a completion with error `e`: only STATUS and ENG change (rule R191). -/
def State.failed (s : State) (e : ErrCode) : State := { s with done := true, err := e, eng := .idle }

/-! ## The framed bitstream and the header -/

/-- Bit `k` of the framed bitstream of the payload of LEN bytes in PAY: the header's bits, most significant first, and
then the bytes' bits, most significant first (41_framer.md rule R132). -/
def State.framedBit (s : State) (k : Nat) : Bool :=
  if k < 32 then s.lenNat.testBit (31 - k) else (s.payAt ((k - 32) / 8)).getLsbD (7 - (k - 32) % 8)

/-- The LSB of slot `k` of the grid (43_extractor.md rule R170). -/
def State.slotLsb (s : State) (k : Nat) : Bool := (s.pixAt (slotAddr s.chan k)).getLsbD 0

/-- `n` is the header that the first 32 bits of a sequence state, most significant first (41_framer.md rule R130). -/
def IsHeader (bitOf : Nat → Bool) (n : Nat) : Prop :=
  n < 2 ^ 32 ∧ ∀ j < 32, n.testBit (31 - j) = bitOf j

end Sys2Proof.Machine
end

