-- ==== Sys2Proof/Certificates/Slice0/Obligations.lean ====
section
/-! DEFINITION. The statements about the model, each from the rules it names in OBLIGATIONS.json. -/

open Sys2Proof Sys2Proof.Machine

/-! ## Encoding -/

/-- The words of spec/opcode_table.json, written out, decode to their commands, and words beside them do not decode
(30_encoding.md rules R91 and R92). -/
def Obligations.OpcodeTableWordsDecode : Prop :=
  decode 0b00000000000000000000000000000001#32 = .ok .bytes2bits ∧
  decode 0b00000000000000000000000000000010#32 = .ok .bits2bytes ∧
  decode 0b00000000000000000000000000000011#32 = .ok .setlsb ∧
  decode 0b00000000000000000000000000000100#32 = .ok .frame ∧
  decode 0b00000000000000000000000000000101#32 = .ok .unframe ∧
  decode 0b00000000000000000000000000000110#32 = .ok .embed ∧
  decode 0b00000000000000000000000000000111#32 = .ok .extract ∧
  decode 0x00000000#32 = .error .opZero ∧
  decode 0x00000008#32 = .error .opReserved ∧
  decode 0x0000000F#32 = .error .opReserved ∧
  decode 0x00000011#32 = .error .rsvdNonzero ∧
  decode 0x80000006#32 = .error .rsvdNonzero

/-- Decoding a command's word gives the command back, for every command. -/
def Obligations.DecodeInvertsEncode : Prop :=
  ∀ i : Instr, i.wf = true → decode (encode i) = .ok i

/-- A command word selects a command exactly when it is that command's word; and it selects none exactly when it is
illegal in the words of rule R92: RSVD is not 0, or OP is 0, or OP is 8 or more. -/
def Obligations.WordsThatDecodeAreExactlyTheOpcodeMap : Prop :=
  ∀ w : Word,
    (∀ i, decode w = .ok i ↔ w = encode i) ∧
    ((∃ e, decode w = .error e) ↔ w.toNat / 16 ≠ 0 ∨ w.toNat % 16 = 0 ∨ 8 ≤ w.toNat % 16)

/-! ## The command's life: acceptance, the engine's step, completion -/

/-- When the engine's turn comes and ENG holds a word that decodes to a command, the step is that command's meaning at
that state, with the turn taken off the inputs to come; and a word placed for the engine by `withFetchWord`, the model's
stand-in for the host's CMD write (notes/assumptions/6.md), runs so. -/
def Obligations.StepRunsTheDecodedCommand : Prop :=
  (∀ (s : State) (w : Word) (i : Instr), s.aboutToComplete w → decode w = .ok i → step s = exec i (dropInput s)) ∧
  (∀ (s : State) (n : Nat) (i : Instr), decodeTableWord 32 n = some i → n < 2 ^ 32 →
    step (s.withFetchWord 32 n) =
      exec i { s with done := false, err := .ok, eng := .busy (BitVec.ofNat 32 n), rst := false })

/-- A write of CMD while BUSY = 0 accepts the word written: DONE and ERR become 0, ENG holds the word, and nothing else
changes; and the engine's turn then completes it (rule R94). -/
def Obligations.CmdWriteWhileIdleIsAccepted : Prop :=
  ∀ (s : State) (off : BitVec 8) (w : Word), s.rst = false → s.busy = false → off &&& 0xFC#8 = 0x04#8 →
    s.writes off w { s with done := false, err := .ok, eng := .busy w } ∧
    ∃ u, step { s with done := false, err := .ok, eng := .busy w, pending := [] } = .next u ∧
      u.done = true ∧ u.eng = .idle

/-- An illegal word is accepted like any other, and then completes with ILLEGAL_OP, error code 5, writing nothing else
(rule R92). -/
def Obligations.IllegalWordCompletesWithIllegalOp : Prop :=
  ∀ w : Word, w.toNat / 16 ≠ 0 ∨ w.toNat % 16 = 0 ∨ 8 ≤ w.toNat % 16 →
    (∀ (s : State) (off : BitVec 8), s.rst = false → s.busy = false → off &&& 0xFC#8 = 0x04#8 →
      s.writes off w { s with done := false, err := .ok, eng := .busy w }) ∧
    (∀ s : State, s.aboutToComplete w → step s = .next ((dropInput s).failed .illegalOp)) ∧
    ErrCode.illegalOp.code = 5

/-- Every step of every state answers a next state: the block has no trap, and every host transaction is allowed at all
times (rules R197 and R199). -/
def Obligations.EveryStepAnswersANextState : Prop :=
  ∀ s : State, ∃ t, step s = .next t

/-- A command that completes with an error changes nothing but STATUS and ENG, for every command (rules R157, R191 and
R194). -/
def Obligations.FailedCommandChangesStatusOnly : Prop :=
  ∀ (i : Instr) (s t : State), exec i s = .next t → t.err ≠ .ok → t = s.failed t.err

/-- Which error codes a command can complete with, and the codes' numbers (rule R190). -/
def Obligations.ErrorCodesAreThoseOfTheTable : Prop :=
  (ErrCode.ok.code = 0 ∧ ErrCode.framing.code = 1 ∧ ErrCode.capacity.code = 2 ∧ ErrCode.corrupt.code = 3 ∧
    ErrCode.tooLarge.code = 4 ∧ ErrCode.illegalOp.code = 5 ∧ ErrCode.bounds.code = 6 ∧ ErrCode.geometry.code = 7) ∧
  ∀ (i : Instr) (s t : State), exec i s = .next t →
    (t.err = .ok ∨ t.err = .framing ∨ t.err = .capacity ∨ t.err = .corrupt ∨ t.err = .tooLarge ∨ t.err = .bounds ∨
      t.err = .geometry) ∧
    (t.err = .framing → i = .bits2bytes) ∧
    (t.err = .capacity → i = .embed) ∧
    (t.err = .corrupt → i = .unframe ∨ i = .extract) ∧
    (t.err = .tooLarge → i = .frame ∨ i = .embed) ∧
    (t.err = .bounds → i ≠ .setlsb) ∧
    (t.err = .geometry → i = .embed ∨ i = .extract)

/-- The frame of every command: it completes, with DONE set and ENG idle; the operand registers, INTEN, WERR and the
inputs are as before; and each memory and each result register is as before unless the opcode map names it as one that
the command writes (rules R60 and R91). -/
def Obligations.CommandWritesOnlyWhatTheMapNames : Prop :=
  ∀ (i : Instr) (s : State), ∃ t, exec i s = .next t ∧
    t = { s with
      done := true, eng := .idle, err := t.err, pix := t.pix, pay := t.pay, bit := t.bit, outcnt := t.outcnt,
      hdr := t.hdr, lsbOut := t.lsbOut } ∧
    (i ≠ .embed → t.pix = s.pix) ∧
    (i ≠ .bits2bytes → i ≠ .unframe → i ≠ .extract → t.pay = s.pay) ∧
    (i ≠ .bytes2bits → i ≠ .frame → t.bit = s.bit) ∧
    (i = .setlsb → t.outcnt = s.outcnt) ∧
    (i = .bytes2bits ∨ i = .bits2bytes ∨ i = .setlsb → t.hdr = s.hdr) ∧
    (i ≠ .setlsb → t.lsbOut = s.lsbOut)

/-! ## The commands -/

/-- BYTES2BITS (rule R113): where LEN bytes fit PAY and 8 * LEN bits fit BIT, they are serialised, bit 7 first;
otherwise BOUNDS. -/
def Obligations.Bytes2bitsSerialisesOrBounds : Prop :=
  decode 0x00000001#32 = .ok .bytes2bits ∧
  ∀ s : State, s.cfg.wf = true →
    (s.lenNat ≤ s.cfg.paySize → 8 * s.lenNat ≤ s.cfg.bitSize →
      ∃ t, exec .bytes2bits s = .next t ∧
        t = { s.completed with bit := t.bit, outcnt := t.outcnt } ∧
        t.outcnt.toNat = 8 * s.lenNat ∧
        (∀ i < s.lenNat, ∀ j < 8, t.bitAt (8 * i + j) = (s.payAt i).getLsbD (7 - j)) ∧
        (∀ a, 8 * s.lenNat ≤ a → t.bitAt a = s.bitAt a)) ∧
    (s.cfg.paySize < s.lenNat ∨ s.cfg.bitSize < 8 * s.lenNat → exec .bytes2bits s = .next (s.failed .bounds))

/-- BITS2BYTES (rule R114): the checks in their order, and the packed bytes where all pass. -/
def Obligations.Bits2bytesPacksOrFails : Prop :=
  decode 0x00000002#32 = .ok .bits2bytes ∧
  ∀ s : State, s.cfg.wf = true →
    (s.bitcntNat ≤ s.cfg.bitSize → s.bitcntNat % 8 = 0 → s.bitcntNat / 8 ≤ s.cfg.paySize →
      ∃ t, exec .bits2bytes s = .next t ∧
        t = { s.completed with pay := t.pay, outcnt := t.outcnt } ∧
        t.outcnt.toNat = s.bitcntNat / 8 ∧
        (∀ i < s.bitcntNat / 8, ∀ j < 8, (t.payAt i).getLsbD (7 - j) = s.bitAt (8 * i + j)) ∧
        (∀ a, s.bitcntNat / 8 ≤ a → t.payAt a = s.payAt a)) ∧
    (s.cfg.bitSize < s.bitcntNat → exec .bits2bytes s = .next (s.failed .bounds)) ∧
    (s.bitcntNat ≤ s.cfg.bitSize → s.bitcntNat % 8 ≠ 0 → exec .bits2bytes s = .next (s.failed .framing)) ∧
    (s.bitcntNat ≤ s.cfg.bitSize → s.bitcntNat % 8 = 0 → s.cfg.paySize < s.bitcntNat / 8 →
      exec .bits2bytes s = .next (s.failed .bounds))

/-- SETLSB (rule R115) always completes: LSB_OUT gets LSB_IN's VALUE with bit 0 replaced by LSB_IN's BIT, and nothing
else changes. -/
def Obligations.SetlsbReplacesBitZero : Prop :=
  decode 0x00000003#32 = .ok .setlsb ∧
  ∀ s : State, ∃ t, exec .setlsb s = .next t ∧
    t = { s.completed with lsbOut := t.lsbOut } ∧
    t.lsbOut.getLsbD 0 = s.lsbIn.getLsbD 8 ∧
    ∀ i, 1 ≤ i → i < 8 → t.lsbOut.getLsbD i = s.lsbIn.getLsbD i

/-- The three laws of `setLsb` (rule R117). -/
def Obligations.SetLsbLaws : Prop :=
  ∀ (v : Byte) (b b1 b2 : Bool),
    setLsb (setLsb v b) b = setLsb v b ∧
    setLsb (setLsb v b1) b2 = setLsb v b2 ∧
    (setLsb v b).toNat ≤ v.toNat + 1 ∧ v.toNat ≤ (setLsb v b).toNat + 1

/-- FRAME (rule R133): TOO_LARGE, then BOUNDS, and otherwise the framed bitstream in BIT. -/
def Obligations.FrameBuildsBitstreamOrFails : Prop :=
  decode 0x00000004#32 = .ok .frame ∧
  ∀ s : State, s.cfg.wf = true →
    (s.lenNat ≤ 2 ^ 32 - 1 → s.lenNat ≤ s.cfg.paySize → 32 + 8 * s.lenNat ≤ s.cfg.bitSize →
      ∃ t, exec .frame s = .next t ∧
        t = { s.completed with bit := t.bit, outcnt := t.outcnt, hdr := t.hdr } ∧
        t.outcnt.toNat = 32 + 8 * s.lenNat ∧ t.hdr.toNat = s.lenNat ∧
        (∀ k < 32 + 8 * s.lenNat, t.bitAt k = s.framedBit k) ∧
        (∀ a, 32 + 8 * s.lenNat ≤ a → t.bitAt a = s.bitAt a)) ∧
    (2 ^ 32 - 1 < s.lenNat → exec .frame s = .next (s.failed .tooLarge)) ∧
    (s.lenNat ≤ 2 ^ 32 - 1 → s.cfg.paySize < s.lenNat ∨ s.cfg.bitSize < 32 + 8 * s.lenNat →
      exec .frame s = .next (s.failed .bounds))

/-- UNFRAME (rule R134): the checks in their order, and where all pass the payload the header states, in PAY. -/
def Obligations.UnframeDecodesBitstreamOrFails : Prop :=
  decode 0x00000005#32 = .ok .unframe ∧
  ∀ s : State, s.cfg.wf = true →
    (∀ n, IsHeader s.bitAt n → s.bitcntNat ≤ s.cfg.bitSize →
      (32 + 8 * n ≤ s.bitcntNat → n ≤ s.cfg.paySize →
        ∃ t, exec .unframe s = .next t ∧
          t = { s.completed with pay := t.pay, outcnt := t.outcnt, hdr := t.hdr } ∧
          t.outcnt.toNat = n ∧ t.hdr.toNat = n ∧
          (∀ i < n, ∀ j < 8, (t.payAt i).getLsbD (7 - j) = s.bitAt (32 + 8 * i + j)) ∧
          (∀ a, n ≤ a → t.payAt a = s.payAt a)) ∧
      (32 ≤ s.bitcntNat → s.bitcntNat < 32 + 8 * n → exec .unframe s = .next (s.failed .corrupt)) ∧
      (32 + 8 * n ≤ s.bitcntNat → s.cfg.paySize < n → exec .unframe s = .next (s.failed .bounds))) ∧
    (s.cfg.bitSize < s.bitcntNat → exec .unframe s = .next (s.failed .bounds)) ∧
    (s.bitcntNat ≤ s.cfg.bitSize → s.bitcntNat < 32 → exec .unframe s = .next (s.failed .corrupt))

/-- EMBED (rule R153): the checks in their order; where all pass, the LSB of slot `k` becomes bit `k` of the framed
bitstream, for every bit of it, and no other bit of PIX changes (rule R154). -/
def Obligations.EmbedWritesSlotLsbsOrFails : Prop :=
  decode 0x00000006#32 = .ok .embed ∧
  ∀ s : State, s.cfg.wf = true →
    (((s.chan = 3 ∨ s.chan = 4) ∧ s.gridW * s.gridH * s.chan ≤ s.cfg.pixSize) →
      (s.lenNat ≤ 2 ^ 32 - 1 → s.lenNat ≤ s.cfg.paySize → 32 + 8 * s.lenNat ≤ s.gridW * s.gridH * 3 →
        ∃ t, exec .embed s = .next t ∧
          t = { s.completed with pix := t.pix, outcnt := t.outcnt, hdr := t.hdr } ∧
          t.outcnt.toNat = 32 + 8 * s.lenNat ∧ t.hdr.toNat = s.lenNat ∧
          (∀ k < 32 + 8 * s.lenNat,
            (t.pixAt (slotAddr s.chan k)).getLsbD 0 = s.framedBit k ∧
            ∀ i, 1 ≤ i → i < 8 →
              (t.pixAt (slotAddr s.chan k)).getLsbD i = (s.pixAt (slotAddr s.chan k)).getLsbD i) ∧
          (∀ a, (∀ k < 32 + 8 * s.lenNat, a ≠ slotAddr s.chan k) → t.pixAt a = s.pixAt a)) ∧
      (2 ^ 32 - 1 < s.lenNat → exec .embed s = .next (s.failed .tooLarge)) ∧
      (s.lenNat ≤ 2 ^ 32 - 1 → s.cfg.paySize < s.lenNat → exec .embed s = .next (s.failed .bounds)) ∧
      (s.lenNat ≤ 2 ^ 32 - 1 → s.lenNat ≤ s.cfg.paySize → s.gridW * s.gridH * 3 < 32 + 8 * s.lenNat →
        exec .embed s = .next (s.failed .capacity))) ∧
    (¬((s.chan = 3 ∨ s.chan = 4) ∧ s.gridW * s.gridH * s.chan ≤ s.cfg.pixSize) →
      exec .embed s = .next (s.failed .geometry))

/-- The fourth channel is never modified by an EMBED, and no other command writes PIX (rule R155). -/
def Obligations.FourthChannelIsNeverModified : Prop :=
  (∀ (s t : State), s.chan = 4 → exec .embed s = .next t → ∀ p, t.pixAt (4 * p + 3) = s.pixAt (4 * p + 3)) ∧
  (∀ (i : Instr) (s t : State), i ≠ .embed → exec i s = .next t → t.pix = s.pix)

/-- Only the first `ceil(T/3)` pixels can differ after an EMBED of `T = 32 + 8 * LEN` bits, only in their channels 0 to
2, and in the last of them only as many channels as bits are left (rule R154). -/
def Obligations.EmbedTouchesOnlyTheFirstPixels : Prop :=
  ∀ (s t : State) (p c : Nat), exec .embed s = .next t → c < s.chan →
    t.pixAt (p * s.chan + c) ≠ s.pixAt (p * s.chan + c) →
      p < (32 + 8 * s.lenNat + 2) / 3 ∧ c < 3 ∧ 3 * p + c < 32 + 8 * s.lenNat

/-- The capacity boundary (rule R156): a bitstream of exactly the capacity succeeds and writes the LSB of every slot; one
bit more fails with CAPACITY and leaves PIX as it is; and which grids can reach the two. -/
def Obligations.CapacityBoundary : Prop :=
  ∀ s : State, s.cfg.wf = true → (s.chan = 3 ∨ s.chan = 4) → s.gridW * s.gridH * s.chan ≤ s.cfg.pixSize →
    s.lenNat ≤ s.cfg.paySize →
    (32 + 8 * s.lenNat = s.gridW * s.gridH * 3 →
      s.gridW * s.gridH * 3 % 8 = 0 ∧
      ∃ t, exec .embed s = .next t ∧ t.err = .ok ∧
        ∀ k < s.gridW * s.gridH * 3, (t.pixAt (slotAddr s.chan k)).getLsbD 0 = s.framedBit k) ∧
    (32 + 8 * s.lenNat = s.gridW * s.gridH * 3 + 1 →
      s.gridW * s.gridH * 3 % 8 = 7 ∧ exec .embed s = .next (s.failed .capacity))

/-- EXTRACT (rule R171): the checks in their order, and where all pass the payload the slots' header states, in PAY. -/
def Obligations.ExtractDecodesSlotsOrFails : Prop :=
  decode 0x00000007#32 = .ok .extract ∧
  ∀ s : State, s.cfg.wf = true →
    (((s.chan = 3 ∨ s.chan = 4) ∧ s.gridW * s.gridH * s.chan ≤ s.cfg.pixSize) →
      (∀ n, IsHeader s.slotLsb n → 32 ≤ s.gridW * s.gridH * 3 →
        (32 + 8 * n ≤ s.gridW * s.gridH * 3 → n ≤ s.cfg.paySize →
          ∃ t, exec .extract s = .next t ∧
            t = { s.completed with pay := t.pay, outcnt := t.outcnt, hdr := t.hdr } ∧
            t.outcnt.toNat = n ∧ t.hdr.toNat = n ∧
            (∀ i < n, ∀ j < 8, (t.payAt i).getLsbD (7 - j) = s.slotLsb (32 + 8 * i + j)) ∧
            (∀ a, n ≤ a → t.payAt a = s.payAt a)) ∧
        (s.gridW * s.gridH * 3 < 32 + 8 * n → exec .extract s = .next (s.failed .corrupt)) ∧
        (32 + 8 * n ≤ s.gridW * s.gridH * 3 → s.cfg.paySize < n → exec .extract s = .next (s.failed .bounds))) ∧
      (s.gridW * s.gridH * 3 < 32 → exec .extract s = .next (s.failed .corrupt))) ∧
    (¬((s.chan = 3 ∨ s.chan = 4) ∧ s.gridW * s.gridH * s.chan ≤ s.cfg.pixSize) →
      exec .extract s = .next (s.failed .geometry))

/-! ## Round trips and independence -/

/-- Packing and serialising undo each other, as functions and as the two commands (rule R116): BYTES2BITS with LEN = n,
then BITS2BYTES with BITCNT = 8n. -/
def Obligations.CodecRoundTrip : Prop :=
  (∀ b : Bytes, bitsToBytes (bytesToBits b) = .ok b) ∧
  (∀ s : Bits, s.length % 8 = 0 → ∃ b, bitsToBytes s = .ok b ∧ bytesToBits b = s) ∧
  (∀ s : State, s.lenNat ≤ s.cfg.paySize → 8 * s.lenNat ≤ s.cfg.bitSize →
    ∃ t, exec .bytes2bits s = .next t ∧ t.err = .ok ∧
      ∀ m : Count, m.toNat = 8 * s.lenNat →
        ∃ u, exec .bits2bytes { t with bitcnt := m } = .next u ∧ u.err = .ok ∧
          u.outcnt.toNat = s.lenNat ∧ ∀ a, u.payAt a = s.payAt a)

/-- FRAME, then UNFRAME with a BITCNT at least as long as the bitstream and no write to the bitstream in between, succeeds
with the payload FRAME read (rule R135). PAY may have changed meanwhile, and BIT above the bitstream. -/
def Obligations.FramerRoundTrip : Prop :=
  (∀ (p : Bytes) (t : Bits), p.length ≤ 2 ^ 32 - 1 →
    ∃ f, frameBits p = .ok f ∧ unframeBits (f ++ t) = .ok p) ∧
  (∀ s t u : State, exec .frame s = .next t → t.err = .ok →
    u.cfg = s.cfg → (∀ k < 32 + 8 * s.lenNat, u.bitAt k = t.bitAt k) →
    32 + 8 * s.lenNat ≤ u.bitcntNat → u.bitcntNat ≤ s.cfg.bitSize →
      ∃ v, exec .unframe u = .next v ∧ v.err = .ok ∧ v.outcnt.toNat = s.lenNat ∧ v.hdr.toNat = s.lenNat ∧
        ∀ a < s.lenNat, v.payAt a = s.payAt a)

/-- EMBED, then EXTRACT in the same geometry with no write to PIX in between, succeeds with the payload EMBED read
(rule R172). -/
def Obligations.EmbedThenExtractRecoversThePayload : Prop :=
  ∀ s t u : State, exec .embed s = .next t → t.err = .ok → u.cfg = s.cfg → u.width = s.width →
    u.height = s.height → u.channels = s.channels →
    (∀ a, u.pixAt a = t.pixAt a) →
      ∃ v, exec .extract u = .next v ∧ v.err = .ok ∧ v.outcnt.toNat = s.lenNat ∧ v.hdr.toNat = s.lenNat ∧
        ∀ a < s.lenNat, v.payAt a = s.payAt a

/-- EXTRACT depends on nothing but the geometry, the parameters and the LSBs of the slots that hold the header and the
payload: alpha, bits 7 to 1 of every cell, later slots, LEN, BITCNT and BIT cannot show (rules R171 and R174). The error
code and the counts need the grid's first 32 slots only, and payload byte `i` needs only its own eight slots beside them. -/
def Obligations.ExtractSeesOnlyTheSlotsItNeeds : Prop :=
  ∀ s s' t t' : State, s'.cfg = s.cfg → s'.width = s.width → s'.height = s.height → s'.channels = s.channels →
    (∀ k < 32, k < s.gridW * s.gridH * 3 → s'.slotLsb k = s.slotLsb k) →
    exec .extract s = .next t → exec .extract s' = .next t' →
      t'.err = t.err ∧
      (t.err = .ok → t'.outcnt = t.outcnt ∧ t'.hdr = t.hdr ∧
        ∀ i < t.outcnt.toNat, (∀ j < 8, s'.slotLsb (32 + 8 * i + j) = s.slotLsb (32 + 8 * i + j)) →
          t'.payAt i = t.payAt i)

/-- A command reads nothing but the operand registers and the memories that the opcode map names for it (rules R91 and
R93): two states that agree on those complete alike, in the error code and in every result. -/
def Obligations.CommandReadsOnlyItsOperands : Prop :=
  ∀ (i : Instr) (s s' t t' : State), s'.cfg = s.cfg →
    (i = .bytes2bits ∨ i = .frame ∨ i = .embed → s'.len = s.len ∧ ∀ a, s'.payAt a = s.payAt a) →
    (i = .bits2bytes ∨ i = .unframe → s'.bitcnt = s.bitcnt ∧ ∀ a, s'.bitAt a = s.bitAt a) →
    (i = .setlsb → s'.lsbIn = s.lsbIn) →
    (i = .embed ∨ i = .extract →
      s'.width = s.width ∧ s'.height = s.height ∧ s'.channels = s.channels ∧ ∀ a, s'.pixAt a = s.pixAt a) →
    exec i s = .next t → exec i s' = .next t' →
      t'.err = t.err ∧
      (t.err = .ok →
        (i ≠ .setlsb → t'.outcnt = t.outcnt) ∧
        (i = .frame ∨ i = .unframe ∨ i = .embed ∨ i = .extract → t'.hdr = t.hdr) ∧
        (i = .setlsb → t'.lsbOut = t.lsbOut) ∧
        (i = .bytes2bits ∨ i = .frame → ∀ a < t.outcnt.toNat, t'.bitAt a = t.bitAt a) ∧
        (i = .bits2bytes ∨ i = .unframe ∨ i = .extract → ∀ a < t.outcnt.toNat, t'.payAt a = t.payAt a) ∧
        (i = .embed → ∀ a, t'.pixAt a = t.pixAt a))

/-! ## Registers -/

/-- What each register reads as, reserved fields as 0, and that a read changes nothing (rules R23 to R41). In every state
that meets the invariant the bits of WIDTH and HEIGHT above DIM_W read 0, and CAP, computed from the two, loses no value. -/
def Obligations.RegisterReadsFollowTheMap : Prop :=
  ∀ (s : State) (off : BitVec 8), s.rst = false →
    (off &&& 0xFC#8 = 0x00#8 → s.reads off 0x534C4301) ∧
    (off &&& 0xFC#8 = 0x04#8 → s.reads off 0) ∧
    (off &&& 0xFC#8 = 0x08#8 →
      s.reads off (s.busy.toNat + 2 * s.done.toNat + 16 * s.err.code.toNat + 256 * s.werr.toNat)) ∧
    (off &&& 0xFC#8 = 0x0C#8 → s.reads off s.doneIe.toNat) ∧
    (off &&& 0xFC#8 = 0x10#8 → s.reads off s.width.toNat) ∧
    (off &&& 0xFC#8 = 0x14#8 → s.reads off s.height.toNat) ∧
    (off &&& 0xFC#8 = 0x18#8 → s.reads off s.channels.toNat) ∧
    (off &&& 0xFC#8 = 0x1C#8 → s.reads off (s.len.toNat % 2 ^ 32)) ∧
    (off &&& 0xFC#8 = 0x20#8 → s.reads off (s.len.toNat / 2 ^ 32)) ∧
    (off &&& 0xFC#8 = 0x24#8 → s.reads off (s.bitcnt.toNat % 2 ^ 32)) ∧
    (off &&& 0xFC#8 = 0x28#8 → s.reads off (s.bitcnt.toNat / 2 ^ 32)) ∧
    (off &&& 0xFC#8 = 0x2C#8 → s.reads off (s.outcnt.toNat % 2 ^ 32)) ∧
    (off &&& 0xFC#8 = 0x30#8 → s.reads off (s.outcnt.toNat / 2 ^ 32)) ∧
    (off &&& 0xFC#8 = 0x34#8 → s.reads off s.lsbIn.toNat) ∧
    (off &&& 0xFC#8 = 0x38#8 → s.reads off s.lsbOut.toNat) ∧
    (off &&& 0xFC#8 = 0x3C#8 → s.reads off s.hdr.toNat) ∧
    (off &&& 0xFC#8 = 0x40#8 → s.reads off (s.gridW * s.gridH * 3 % 2 ^ 32)) ∧
    (off &&& 0xFC#8 = 0x44#8 → s.reads off (s.gridW * s.gridH * 3 % 2 ^ 64 / 2 ^ 32)) ∧
    (0x48 ≤ (off &&& 0xFC#8).toNat → s.reads off 0) ∧
    (s.Inv → s.width.toNat < 2 ^ s.cfg.dimW ∧ s.height.toNat < 2 ^ s.cfg.dimW ∧ s.gridW * s.gridH * 3 < 2 ^ 64)

/-- CAP reads as `W * H * 3`, low half and high half, with no value lost, and a write of it is ignored (rule R41). -/
def Obligations.CapReadsAsWidthTimesHeightTimesThree : Prop :=
  ∀ (s : State) (off : BitVec 8), s.Inv → s.rst = false →
    s.gridW * s.gridH * 3 < 2 ^ 64 ∧
    (off &&& 0xFC#8 = 0x40#8 → s.reads off (s.gridW * s.gridH * 3 % 2 ^ 32) ∧ ∀ v, s.writes off v s) ∧
    (off &&& 0xFC#8 = 0x44#8 → s.reads off (s.gridW * s.gridH * 3 / 2 ^ 32) ∧ ∀ v, s.writes off v s)

/-- What a write to each register but CMD, STATUS and INTEN stores while BUSY = 0: the register's own bits, and nothing in a
read-only register or where no register is (rules R23 to R41). -/
def Obligations.RegisterWritesStoreTheirFields : Prop :=
  ∀ (s : State) (off : BitVec 8) (v : Word), s.rst = false → s.busy = false →
    (off &&& 0xFC#8 = 0x10#8 →
      ∃ x : Word, x.toNat = v.toNat % 2 ^ s.cfg.dimW ∧ s.writes off v { s with width := x }) ∧
    (off &&& 0xFC#8 = 0x14#8 →
      ∃ x : Word, x.toNat = v.toNat % 2 ^ s.cfg.dimW ∧ s.writes off v { s with height := x }) ∧
    (off &&& 0xFC#8 = 0x18#8 →
      ∃ x : BitVec 3, x.toNat = v.toNat % 8 ∧ s.writes off v { s with channels := x }) ∧
    (off &&& 0xFC#8 = 0x1C#8 →
      ∃ x : Count, x.toNat = s.len.toNat / 2 ^ 32 * 2 ^ 32 + v.toNat ∧ s.writes off v { s with len := x }) ∧
    (off &&& 0xFC#8 = 0x20#8 →
      ∃ x : Count, x.toNat = v.toNat * 2 ^ 32 + s.len.toNat % 2 ^ 32 ∧ s.writes off v { s with len := x }) ∧
    (off &&& 0xFC#8 = 0x24#8 →
      ∃ x : Count, x.toNat = s.bitcnt.toNat / 2 ^ 32 * 2 ^ 32 + v.toNat ∧ s.writes off v { s with bitcnt := x }) ∧
    (off &&& 0xFC#8 = 0x28#8 →
      ∃ x : Count, x.toNat = v.toNat * 2 ^ 32 + s.bitcnt.toNat % 2 ^ 32 ∧ s.writes off v { s with bitcnt := x }) ∧
    (off &&& 0xFC#8 = 0x34#8 →
      ∃ x : BitVec 9, x.toNat = v.toNat % 2 ^ 9 ∧ s.writes off v { s with lsbIn := x }) ∧
    (off &&& 0xFC#8 = 0x00#8 ∨ off &&& 0xFC#8 = 0x2C#8 ∨ off &&& 0xFC#8 = 0x30#8 ∨ off &&& 0xFC#8 = 0x38#8 ∨
      off &&& 0xFC#8 = 0x3C#8 ∨ off &&& 0xFC#8 = 0x40#8 ∨ off &&& 0xFC#8 = 0x44#8 ∨
      0x48 ≤ (off &&& 0xFC#8).toNat → s.writes off v s)

/-- A write of STATUS has exactly two effects, whether or not a command runs, and the reserved bits of STATUS read 0
(rule R30). -/
def Obligations.StatusWriteClearsDoneAndWerrOnly : Prop :=
  ∀ (s : State) (off : BitVec 8) (v : Word), s.rst = false → off &&& 0xFC#8 = 0x08#8 →
    (v.getLsbD 1 = false → v.getLsbD 8 = false → s.writes off v s) ∧
    (v.getLsbD 1 = true → v.getLsbD 8 = false → s.writes off v { s with done := false }) ∧
    (v.getLsbD 1 = false → v.getLsbD 8 = true → s.writes off v { s with werr := false }) ∧
    (v.getLsbD 1 = true → v.getLsbD 8 = true → s.writes off v { s with done := false, werr := false }) ∧
    ∀ i, i = 2 ∨ i = 3 ∨ 9 ≤ i → (statusWord s).getLsbD i = false

/-- INTEN is not guarded: its one field is written at any time, and its other bits read 0 (rule R31). -/
def Obligations.IntenIsWrittenAtAnyTime : Prop :=
  ∀ (s : State) (off : BitVec 8) (v : Word), s.rst = false → off &&& 0xFC#8 = 0x0C#8 →
    s.writes off v { s with doneIe := v.getLsbD 0 } ∧ s.reads off s.doneIe.toNat

/-- A write to a guarded register while BUSY = 1 is dropped and sets WERR, and no operand register of a command changes
between its acceptance and its completion, but by a reset (rule R42). -/
def Obligations.GuardedWritesAreDroppedWhileBusy : Prop :=
  (∀ (s : State) (off : BitVec 8) (v : Word), s.rst = false → s.busy = true →
    (off &&& 0xFC#8 = 0x04#8 ∨ off &&& 0xFC#8 = 0x10#8 ∨ off &&& 0xFC#8 = 0x14#8 ∨ off &&& 0xFC#8 = 0x18#8 ∨
      off &&& 0xFC#8 = 0x1C#8 ∨ off &&& 0xFC#8 = 0x20#8 ∨ off &&& 0xFC#8 = 0x24#8 ∨ off &&& 0xFC#8 = 0x28#8 ∨
      off &&& 0xFC#8 = 0x34#8) →
    s.writes off v { s with werr := true }) ∧
  (∀ s t : State, step s = .next t → s.busy = true → s.pending.head? ≠ some .rstOn →
    t.width = s.width ∧ t.height = s.height ∧ t.channels = s.channels ∧ t.len = s.len ∧ t.bitcnt = s.bitcnt ∧
      t.lsbIn = s.lsbIn ∧ (t.busy = true → t.eng = s.eng))

/-- The interrupt output is `DONE AND DONE_IE` in every state: it is 1 after a completion with DONE_IE set, whatever the
result, and 0 once the host clears DONE, starts a command, clears DONE_IE, or resets the block (rule R195). -/
def Obligations.IrqRisesAtCompletionAndFalls : Prop :=
  (∀ s : State, irq s = true ↔ s.done = true ∧ s.doneIe = true) ∧
  (∀ (s t : State) (w : Word), s.aboutToComplete w → step s = .next t → irq t = s.doneIe) ∧
  (∀ (s t : State) (off : BitVec 8) (v : Word), s.rst = false → s.pending.head? = some (.wr off v) → step s = .next t →
    (off &&& 0xFC#8 = 0x08#8 → v.getLsbD 1 = true → irq t = false) ∧
    (off &&& 0xFC#8 = 0x04#8 → s.busy = false → irq t = false) ∧
    (off &&& 0xFC#8 = 0x0C#8 → v.getLsbD 0 = false → irq t = false)) ∧
  (∀ s t : State, s.pending.head? = some .rstOn → step s = .next t → irq t = false)

/-! ## Memory ports and ownership -/

/-- The memory ports. While no command runs, a cell of the space is read and written, and an address outside it reads 0
and ignores a write with no flag set (rule R61); while a command runs, every read returns 0 and every write is dropped
and sets WERR (rule R82). That a memory read under a held reset answers so too, and that a write under it changes nothing,
WERR included, are the model's readings of the rules (notes/assumptions/5.md and 15.md; 70_reset_and_hazards.md rule R220
says that a transaction has no effect then). -/
def Obligations.MemoryPortsReadAndWriteCells : Prop :=
  ∀ (s : State) (a v : Nat),
    (s.busy = false →
      (∀ sp, s.cfg.size sp ≤ a → s.readsCell sp a 0) ∧
      (a < s.cfg.pixSize → s.readsCell .pix a (s.pixAt a).toNat) ∧
      (a < s.cfg.paySize → s.readsCell .pay a (s.payAt a).toNat) ∧
      (a < s.cfg.bitSize → s.readsCell .bit a (s.bitAt a).toNat)) ∧
    (s.busy = true → ∀ sp, s.readsCell sp a 0) ∧
    (s.rst = false → s.busy = false →
      (∀ sp, s.cfg.size sp ≤ a → s.writesCell sp a v s) ∧
      (a < s.cfg.pixSize → ∃ m, s.writesCell .pix a v { s with pix := m } ∧
        ({ s with pix := m }.pixAt a).toNat = v % 256 ∧ ∀ b, b ≠ a → { s with pix := m }.pixAt b = s.pixAt b) ∧
      (a < s.cfg.paySize → ∃ m, s.writesCell .pay a v { s with pay := m } ∧
        ({ s with pay := m }.payAt a).toNat = v % 256 ∧ ∀ b, b ≠ a → { s with pay := m }.payAt b = s.payAt b) ∧
      (a < s.cfg.bitSize → ∃ m, s.writesCell .bit a v { s with bit := m } ∧
        ({ s with bit := m }.bitAt a).toNat = v % 2 ∧ ∀ b, b ≠ a → { s with bit := m }.bitAt b = s.bitAt b)) ∧
    (s.rst = false → s.busy = true → ∀ sp, s.writesCell sp a v { s with werr := true }) ∧
    (s.rst = true → ∀ sp, s.writesCell sp a v s)

/-- At any moment one agent reaches memory: while a command runs no host transaction changes a memory or a result
register, and while none runs the engine's turn changes nothing (rule R78). -/
def Obligations.OneAgentOwnsMemoryAtATime : Prop :=
  ∀ s t : State, step s = .next t →
    (s.busy = true → (∃ i rest, s.pending = i :: rest ∧ i.isTransaction = true) →
      t.pix = s.pix ∧ t.pay = s.pay ∧ t.bit = s.bit ∧ t.outcnt = s.outcnt ∧ t.hdr = s.hdr ∧ t.lsbOut = s.lsbOut) ∧
    (s.busy = false → (s.pending = [] ∨ ∃ rest, s.pending = .engine :: rest) → t = dropInput s)

/-! ## Which events change STATUS -/

/-- BUSY rises at an accepted CMD write and at nothing else, and falls at a completion or a reset and at nothing else (rules
R26 and R43). -/
def Obligations.BusyChangesOnlyAtAcceptanceCompletionAndReset : Prop :=
  ∀ s t : State, step s = .next t →
    (s.busy = false → t.busy = true →
      ∃ off v rest, s.pending = .wr off v :: rest ∧ off &&& 0xFC#8 = 0x04#8 ∧ t.eng = .busy v) ∧
    (s.busy = true → t.busy = false →
      (∃ rest, s.pending = .rstOn :: rest) ∨ (∃ w, s.aboutToComplete w ∧ t.done = true)) ∧
    (s.rst = false → s.busy = false → (∃ off v rest, s.pending = .wr off v :: rest ∧ off &&& 0xFC#8 = 0x04#8) →
      t.busy = true) ∧
    (∀ w, s.aboutToComplete w → t.busy = false) ∧
    (s.pending.head? = some .rstOn → t.busy = false)

/-- DONE rises at a completion and at nothing else, and falls at an accepted CMD write, at a STATUS write with bit 1 set or
at a reset, and at nothing else (rule R27). -/
def Obligations.DoneChangesOnlyAtItsEvents : Prop :=
  ∀ s t : State, step s = .next t →
    (s.done = false → t.done = true → ∃ w, s.aboutToComplete w) ∧
    (s.done = true → t.done = false →
      (∃ rest, s.pending = .rstOn :: rest) ∨
      ∃ off v rest, s.pending = .wr off v :: rest ∧
        (off &&& 0xFC#8 = 0x04#8 ∧ s.busy = false ∨ off &&& 0xFC#8 = 0x08#8 ∧ v.getLsbD 1 = true)) ∧
    (∀ w, s.aboutToComplete w → t.done = true) ∧
    (s.rst = false → (∃ off v rest, s.pending = .wr off v :: rest ∧
        (off &&& 0xFC#8 = 0x04#8 ∧ s.busy = false ∨ off &&& 0xFC#8 = 0x08#8 ∧ v.getLsbD 1 = true)) → t.done = false) ∧
    (s.pending.head? = some .rstOn → t.done = false)

/-- WERR rises when a write of a guarded register or of a memory cell is dropped because a command runs, and at nothing
else; and it falls at a STATUS write with bit 8 set or at a reset, and at nothing else: no acceptance and no completion
touches it (rule R29). -/
def Obligations.WerrIsStickyAndSetByDroppedWrites : Prop :=
  ∀ s t : State, step s = .next t →
    (s.werr = false → t.werr = true → s.busy = true ∧
      ((∃ off v rest r, s.pending = .wr off v :: rest ∧ Reg.ofOffset off = some r ∧ r.guarded = true) ∨
        ∃ sp a v rest, s.pending = .wrm sp a v :: rest)) ∧
    (s.werr = true → t.werr = false →
      (∃ rest, s.pending = .rstOn :: rest) ∨
      ∃ off v rest, s.pending = .wr off v :: rest ∧ off &&& 0xFC#8 = 0x08#8 ∧ v.getLsbD 8 = true) ∧
    (s.rst = false → s.busy = true →
      ((∃ off v rest r, s.pending = .wr off v :: rest ∧ Reg.ofOffset off = some r ∧ r.guarded = true) ∨
        ∃ sp a v rest, s.pending = .wrm sp a v :: rest) → t.werr = true) ∧
    (s.rst = false → (∃ off v rest, s.pending = .wr off v :: rest ∧ off &&& 0xFC#8 = 0x08#8 ∧ v.getLsbD 8 = true) →
      t.werr = false) ∧
    (s.pending.head? = some .rstOn → t.werr = false)

/-! ## Reset -/

/-- Reset gives every register its reset value, whatever was before: what each register reads as after it, ENG idle, irq
0; and so does power-on, for every choice of the parameters (rule R44). -/
def Obligations.ResetValuesOfTheRegisters : Prop :=
  (∀ s t : State, s.pending.head? = some .rstOn → step s = .next t →
    t.rst = true ∧ t.eng = .idle ∧ irq t = false ∧ t.cfg = s.cfg ∧
    readReg t .id = 0x534C4301 ∧ readReg t .channels = 3 ∧
    ∀ r, r ≠ .id → r ≠ .channels → readReg t r = 0) ∧
  (∀ c : Config, (State.poweredOn c).eng = .idle ∧ (State.poweredOn c).cfg = c ∧
    readReg (State.poweredOn c) .id = 0x534C4301 ∧ readReg (State.poweredOn c) .channels = 3 ∧
    ∀ r, r ≠ .id → r ≠ .channels → readReg (State.poweredOn c) r = 0)

/-- A reset leaves every memory cell as it is, but for the write set of a command it abandons: nothing while no command
runs, for an illegal word, for SETLSB, or where a check of the command would raise an error (rule R221). -/
def Obligations.ResetKeepsMemoryOutsideTheWriteSet : Prop :=
  ∀ s t : State, s.pending.head? = some .rstOn → step s = .next t →
    (s.busy = false → t.pix = s.pix ∧ t.pay = s.pay ∧ t.bit = s.bit) ∧
    (∀ w, s.eng = .busy w →
      ((∃ e, decode w = .error e) → t.pix = s.pix ∧ t.pay = s.pay ∧ t.bit = s.bit) ∧
      (∀ i u, decode w = .ok i → exec i s = .next u →
        (u.err ≠ .ok ∨ i = .setlsb → t.pix = s.pix ∧ t.pay = s.pay ∧ t.bit = s.bit) ∧
        (i ≠ .embed → t.pix = s.pix) ∧
        (i ≠ .bits2bytes → i ≠ .unframe → i ≠ .extract → t.pay = s.pay) ∧
        (i ≠ .bytes2bits → i ≠ .frame → t.bit = s.bit) ∧
        (u.err = .ok → s.cfg.wf = true →
          (i = .bytes2bits ∨ i = .frame → ∀ a, u.outcnt.toNat ≤ a → t.bitAt a = s.bitAt a) ∧
          (i = .bits2bytes ∨ i = .unframe ∨ i = .extract → ∀ a, u.outcnt.toNat ≤ a → t.payAt a = s.payAt a) ∧
          (i = .embed → ∀ a, (∀ k < u.outcnt.toNat, a ≠ slotAddr s.chan k) → t.pixAt a = s.pixAt a))))

/-- While `rst` is held no input but its release changes the registers, the engine or the memories; register reads
return the reset values (rule R220). That memory reads return the cells (notes/assumptions/5.md), that asserting `rst` again
changes nothing (7.md), and that WERR is not set and the engine's turn does nothing (15.md) are the model's readings and
choices. -/
def Obligations.HeldResetBlocksTheHost : Prop :=
  ∀ s t : State, s.rst = true → s.Inv → step s = .next t → s.pending.head? ≠ some .rstOff →
    t = { s with pending := t.pending, log := t.log } ∧
    (∀ off rest, s.pending = .rd off :: rest →
      t.log = ⟨.reg, .r, off.toNat, (portRead off (State.poweredOn s.cfg)).toNat⟩ :: s.log) ∧
    ∀ sp a rest, s.pending = .rdm sp a :: rest →
      t.log = ⟨.mem sp, .r, a, if a < s.cfg.size sp then cellNat sp a s else 0⟩ :: s.log

/-! ## Whole-machine statements -/

/-- The invariant holds after power-on, for every choice of the parameters in their ranges. That `rst` is released and no
input is to come in that state is the model's choice (notes/assumptions/4.md and 7.md). -/
def Obligations.InvariantHoldsAtPowerOn : Prop :=
  (∀ c : Config, c.wf = true → (State.poweredOn c).Inv) ∧ State.reset.Inv

/-- Every step keeps the invariant: the memories' canonical form and bounds, the widths of WIDTH and HEIGHT, DONE and ERR
0 while a command runs, the registers at their reset values while `rst` is held, the parameters constant. -/
def Obligations.EveryStepKeepsTheInvariant : Prop :=
  ∀ s t : State, s.Inv → step s = .next t → t.Inv ∧ t.cfg = s.cfg

/-- Every accepted command completes: however many host transactions come first, some step after at most as many as there
are inputs to come is the command's completion, with DONE set (rule R229). That the schedule is a finite list, with the
engine's turn where it ends, is the model's choice (notes/assumptions/4.md). -/
def Obligations.AcceptedCommandCompletes : Prop :=
  ∀ (s : State) (w : Word), s.rst = false → s.eng = .busy w → Input.rstOn ∉ s.pending →
    ∃ k t u, k ≤ s.pending.length ∧ Sys2Proof.core.run k s = .next t ∧ t.aboutToComplete w ∧
      step t = .next u ∧ u.busy = false ∧ u.done = true

/-- No host transaction made while a command runs can change what the command does (rules R42, R78 and R83): after any
list of them the completion gives the same registers and memories as at once, but for INTEN and WERR, which the host
writes itself. -/
def Obligations.TransactionsWhileBusyDoNotAlterTheCommand : Prop :=
  ∀ (s t u : State) (w : Word) (ts : List Input), s.rst = false → s.eng = .busy w →
    (∀ i ∈ ts, i.isTransaction = true) →
    Sys2Proof.core.run (ts.length + 1) { s with pending := ts ++ [.engine] } = .next t →
    step { s with pending := [.engine] } = .next u →
      t = { u with doneIe := t.doneIe, werr := t.werr, pending := t.pending, log := t.log }

/-- The polling loop WAIT ends with the command complete (rule R100): each of the polls before the completion reads BUSY
= 1, and the last read finds BUSY = 0 with DONE = 1, ERR in bits [7:4] and WERR in bit 8. That the number of polls is an
input is the model's choice (notes/assumptions/4.md). -/
def Obligations.WaitEndsWithTheCommandComplete : Prop :=
  ∀ (s : State) (w : Word) (k : Nat), s.rst = false → s.eng = .busy w → s.pending = hostWAIT k →
    ∃ t v, Sys2Proof.core.run (k + 2) s = .next t ∧ t.busy = false ∧ t.done = true ∧ t.pending = [] ∧
      v = (statusWord t).toNat ∧ v % 4 = 2 ∧ v / 16 % 16 = t.err.code.toNat ∧ v / 256 % 2 = t.werr.toNat ∧
      t.log = ⟨.reg, .r, 0x08, v⟩ :: (List.replicate k ⟨.reg, .r, 0x08, (statusWord s).toNat⟩ ++ s.log) ∧
      (statusWord s).toNat % 2 = 1

/-- The host's pseudo-instructions do what they stand for (rules R99 and R101), in a block that runs no command: WR64
loads both halves of LEN and of BITCNT, RD64 reads OUTCNT and CAP back as numbers, CMD starts its command, and LOADM
writes consecutive cells of a space, and no other cell. -/
def Obligations.PseudoInstructionsDoWhatTheyStandFor : Prop :=
  ∀ s : State, s.rst = false → s.busy = false →
    (∀ v, v < 2 ^ 64 → s.pending = hostWR64Len v →
      ∃ t, Sys2Proof.core.run 2 s = .next t ∧
        t = { s with len := t.len, pending := [], log := t.log } ∧ t.len.toNat = v) ∧
    (∀ v, v < 2 ^ 64 → s.pending = hostWR64Bitcnt v →
      ∃ t, Sys2Proof.core.run 2 s = .next t ∧
        t = { s with bitcnt := t.bitcnt, pending := [], log := t.log } ∧ t.bitcnt.toNat = v) ∧
    (s.pending = hostRD64Outcnt →
      ∃ lo hi : Word, combine64 lo hi = s.outcnt.toNat ∧
        Sys2Proof.core.run 2 s = .next { s with
          pending := [], log := ⟨.reg, .r, 0x30, hi.toNat⟩ :: ⟨.reg, .r, 0x2C, lo.toNat⟩ :: s.log }) ∧
    (s.Inv → s.pending = hostRD64Cap →
      ∃ lo hi : Word, combine64 lo hi = s.gridW * s.gridH * 3 ∧
        Sys2Proof.core.run 2 s = .next { s with
          pending := [], log := ⟨.reg, .r, 0x44, hi.toNat⟩ :: ⟨.reg, .r, 0x40, lo.toNat⟩ :: s.log }) ∧
    (∀ i, s.pending = hostCMD i →
      ∃ t, step s = .next t ∧ t.done = false ∧ t.err = .ok ∧ t.eng = .busy (encode i)) ∧
    (∀ sp a vs, a + vs.length ≤ s.cfg.size sp → s.pending = hostLOADM sp a vs →
      ∃ t, Sys2Proof.core.run vs.length s = .next t ∧
        t = { s with pix := t.pix, pay := t.pay, bit := t.bit, pending := [], log := t.log } ∧
        (∀ k (h : k < vs.length), cellNat sp (a + k) t = vs[k] % (if sp = .bit then 2 else 256)) ∧
        ∀ sp' b, sp' ≠ sp ∨ b < a ∨ a + vs.length ≤ b → cellNat sp' b t = cellNat sp' b s)
end

