-- ==== Sys2Proof/Laws/Memory.lean ====
section
/-! SUPPORT. What the memory operations do: read after write, the canonical form kept, and the cells of a consecutive
write. -/

namespace Sys2Proof.Machine

namespace Memory

variable {α : Type}

@[simp] theorem writeAll_nil (m : Memory α) : writeAll m [] = m := rfl

@[simp] theorem find_nil (a : Nat) : find ([] : Memory α) a = none := rfl

theorem find_write_same (m : Memory α) (a : Nat) (v : α) : find (write m a v) a = some v := by
  induction m with
  | nil => simp [write, find]
  | cons c m ih =>
    obtain ⟨b, w⟩ := c
    simp only [write]
    split
    · simp only [find, if_neg (show ¬a = b by omega), ih]
    · split <;> simp [find]

theorem find_write_other (m : Memory α) {a b : Nat} (v : α) (h : b ≠ a) : find (write m a v) b = find m b := by
  induction m with
  | nil => simp [write, find, h]
  | cons c m ih =>
    obtain ⟨k, w⟩ := c
    simp only [write]
    split
    · simp only [find, ih]
    · split
      · next h' => subst h'; simp [find, h]
      · simp [find, h]

/-- The value last written to an address is the one its first listed cell gives. -/
theorem find_writeAll (m : Memory α) (cs : List (Nat × α)) (a : Nat) :
    find (writeAll m cs) a = (find cs a).or (find m a) := by
  induction cs with
  | nil => simp [writeAll, find]
  | cons c cs ih =>
    obtain ⟨b, v⟩ := c
    by_cases h : a = b
    · subst h; simp [writeAll, find, find_write_same]
    · simp [writeAll, find, find_write_other _ _ h, h, ih]

theorem find_none_of_forall_ne {m : Memory α} {a : Nat} (h : ∀ c ∈ m, c.1 ≠ a) : find m a = none := by
  induction m with
  | nil => rfl
  | cons c m ih =>
    obtain ⟨b, v⟩ := c
    have hb : a ≠ b := fun e => h (b, v) (by simp) e.symm
    simp only [find, if_neg hb]
    exact ih fun c hc => h c (by simp [hc])

/-- The addresses of a memory after a write: those before, and the one written. -/
theorem mem_write_fst (m : Memory α) (a : Nat) (v : α) {b : Nat} (h : b ∈ (write m a v).map Prod.fst) :
    b = a ∨ b ∈ m.map Prod.fst := by
  induction m with
  | nil => simpa [write] using h
  | cons c m ih =>
    obtain ⟨k, w⟩ := c
    simp only [write] at h
    split at h
    · simp only [List.map_cons, List.mem_cons] at h ⊢
      rcases h with h | h
      · exact .inr (.inl h)
      · rcases ih h with h | h
        · exact .inl h
        · exact .inr (.inr h)
    · split at h
      · simp only [List.map_cons, List.mem_cons] at h ⊢
        rcases h with h | h
        · exact .inl h
        · exact .inr (.inr h)
      · simpa using h

theorem wf_iff (m : Memory α) (n : Nat) :
    wf m n = true ↔ (m.map Prod.fst).Pairwise (· < ·) ∧ ∀ b ∈ m.map Prod.fst, b < n := by
  simp [wf, List.all_eq_true]

theorem pairwise_write (m : Memory α) (a : Nat) (v : α) (h : (m.map Prod.fst).Pairwise (· < ·)) :
    ((write m a v).map Prod.fst).Pairwise (· < ·) := by
  induction m with
  | nil => simp [write]
  | cons c m ih =>
    obtain ⟨k, w⟩ := c
    simp only [List.map_cons, List.pairwise_cons] at h
    simp only [write]
    split
    · next hk =>
      simp only [List.map_cons, List.pairwise_cons]
      refine ⟨fun b hb => ?_, ih h.2⟩
      rcases mem_write_fst m a v hb with rfl | hb
      · exact hk
      · exact h.1 b hb
    · split
      · next hk => subst hk; simpa using h
      · next h1 h2 =>
        simp only [List.map_cons, List.pairwise_cons, List.mem_cons]
        refine ⟨?_, h⟩
        rintro b (rfl | hb)
        · omega
        · have := h.1 b hb; omega

/-- A write to a cell of the space keeps the canonical form. -/
theorem write_wf {m : Memory α} {n a : Nat} (v : α) (h : wf m n = true) (ha : a < n) : wf (write m a v) n = true := by
  rw [wf_iff] at h ⊢
  refine ⟨pairwise_write m a v h.1, fun b hb => ?_⟩
  rcases mem_write_fst m a v hb with rfl | hb
  · exact ha
  · exact h.2 b hb

/-- Writing cells of the space keeps the canonical form. -/
theorem writeAll_wf {m : Memory α} {n : Nat} {cs : List (Nat × α)} (h : wf m n = true) (hc : ∀ c ∈ cs, c.1 < n) :
    wf (writeAll m cs) n = true := by
  induction cs with
  | nil => simpa [writeAll] using h
  | cons c cs ih =>
    obtain ⟨a, v⟩ := c
    exact write_wf v (ih fun c hm => hc c (by simp [hm])) (hc (a, v) (by simp))

/-- Two memories in canonical form that hold the same written values are equal data. -/
theorem eq_of_find_eq {m m' : Memory α} {n n' : Nat} (h : wf m n = true) (h' : wf m' n' = true)
    (hf : ∀ a, find m a = find m' a) : m = m' := by
  rw [wf_iff] at h h'
  replace h := h.1
  replace h' := h'.1
  have none_of_lt : ∀ {m : Memory α} {a : Nat}, (∀ b ∈ m.map Prod.fst, a < b) → find m a = none := fun hm =>
    find_none_of_forall_ne fun c hc e => absurd (hm c.1 (List.mem_map_of_mem hc)) (by omega)
  induction m generalizing m' with
  | nil =>
    cases m' with
    | nil => rfl
    | cons c m' => simpa [find] using hf c.1
  | cons c m ih =>
    obtain ⟨k, w⟩ := c
    cases m' with
    | nil => simpa [find] using hf k
    | cons c' m' =>
      obtain ⟨k', w'⟩ := c'
      simp only [List.map_cons, List.pairwise_cons] at h h'
      have hk : k = k' := by
        rcases Nat.lt_trichotomy k k' with hlt | rfl | hlt
        · have := hf k
          rw [none_of_lt (m := (k', w') :: m') (a := k)] at this
          · simp [find] at this
          · simp only [List.map_cons, List.mem_cons]
            rintro b (rfl | hb)
            · exact hlt
            · have := h'.1 b hb; omega
        · rfl
        · have := hf k'
          rw [none_of_lt (m := (k, w) :: m) (a := k')] at this
          · simp [find] at this
          · simp only [List.map_cons, List.mem_cons]
            rintro b (rfl | hb)
            · exact hlt
            · have := h.1 b hb; omega
      subst hk
      have hw : w = w' := by simpa [find] using hf k
      subst hw
      rw [ih (fun a => ?_) h.2 h'.2]
      by_cases ha : a = k
      · subst ha; rw [none_of_lt h.1, none_of_lt h'.1]
      · simpa [find, ha] using hf a

end Memory

/-- Where a consecutive write reaches, and what it puts there. -/
theorem find_cellsFrom {α : Type} (vs : List α) (a b : Nat) :
    Memory.find (cellsFrom a vs) b = if a ≤ b then vs[b - a]? else none := by
  induction vs generalizing a with
  | nil => simp [cellsFrom]
  | cons v vs ih =>
    simp only [cellsFrom, Memory.find, ih]
    by_cases h : b = a
    · subst h; simp
    · by_cases h1 : a ≤ b
      · have : b - a = b - (a + 1) + 1 := by omega
        rw [if_neg h, if_pos h1, if_pos (by omega), this, List.getElem?_cons_succ]
      · rw [if_neg h, if_neg h1, if_neg (by omega)]

/-- The addresses of a consecutive write from 0 lie below its length. -/
theorem mem_cellsFrom {α : Type} {vs : List α} {a : Nat} {c : Nat × α} (h : c ∈ cellsFrom a vs) :
    a ≤ c.1 ∧ c.1 < a + vs.length := by
  induction vs generalizing a with
  | nil => simp [cellsFrom] at h
  | cons v vs ih =>
    simp only [cellsFrom, List.mem_cons] at h
    rcases h with rfl | h
    · simp
    · have := ih h
      simp only [List.length_cons]
      omega

@[simp] theorem length_memRead {α : Type} (cell : Nat → α) (n : Nat) : (memRead cell n).length = n := by
  simp [memRead]

@[simp] theorem getElem_memRead {α : Type} (cell : Nat → α) (n i : Nat) (h : i < (memRead cell n).length) :
    (memRead cell n)[i] = cell i := by
  simp [memRead]

theorem memRead_congr {α : Type} {f g : Nat → α} {n : Nat} (h : ∀ i < n, f i = g i) : memRead f n = memRead g n := by
  simp only [memRead, List.map_inj_left, List.mem_range]
  exact h

end Sys2Proof.Machine
end

