-- ==== Sys2Proof/Laws/Codec.lean ====
section
/-! SUPPORT. What the codec's functions do: lengths, elements, the two inverses of 40_codec.md rule R116, and the bits of
`setLsb`. -/

namespace Sys2Proof.Machine

@[simp] theorem length_byteBits (b : Byte) : (byteBits b).length = 8 := by simp [byteBits]

@[simp] theorem getElem_byteBits (b : Byte) (j : Nat) (h : j < (byteBits b).length) :
    (byteBits b)[j] = b.getLsbD (7 - j) := by simp [byteBits]

@[simp] theorem length_bytesToBits (bs : Bytes) : (bytesToBits bs).length = 8 * bs.length := by
  induction bs with
  | nil => rfl
  | cons b bs ih => simp [bytesToBits, ih]; omega

theorem bytesToBits_append (a b : Bytes) : bytesToBits (a ++ b) = bytesToBits a ++ bytesToBits b := by
  induction a with
  | nil => rfl
  | cons x a ih => simp [bytesToBits, ih]

/-- Bit `8 * i + j` of the serialised bytes is bit `7 - j` of byte `i` (rule R110). -/
theorem getElem?_bytesToBits (bs : Bytes) (i j : Nat) (hj : j < 8) :
    (bytesToBits bs)[8 * i + j]? = (bs[i]?).map fun b => b.getLsbD (7 - j) := by
  induction bs generalizing i with
  | nil => simp [bytesToBits]
  | cons b bs ih =>
    cases i with
    | zero =>
      have hl : j < (byteBits b).length := by simpa using hj
      simp only [bytesToBits, Nat.mul_zero, Nat.zero_add, List.getElem?_cons_zero, Option.map_some]
      rw [List.getElem?_append_left hl, List.getElem?_eq_getElem hl, getElem_byteBits]
    | succ i =>
      simp only [bytesToBits, List.getElem?_cons_succ]
      rw [List.getElem?_append_right (by simp; omega), length_byteBits,
        show 8 * (i + 1) + j - 8 = 8 * i + j by omega, ih]

/-- The same by one index. -/
theorem getElem?_bytesToBits' (bs : Bytes) (k : Nat) :
    (bytesToBits bs)[k]? = (bs[k / 8]?).map fun b => b.getLsbD (7 - k % 8) := by
  have := getElem?_bytesToBits bs (k / 8) (k % 8) (Nat.mod_lt _ (by omega))
  rwa [Nat.div_add_mod] at this

/-- The byte that eight bits pack into, and its bits back. -/
theorem byteBits_pack (b7 b6 b5 b4 b3 b2 b1 b0 : Bool) :
    byteBits (BitVec.ofNat 8 (b7.toNat * 128 + b6.toNat * 64 + b5.toNat * 32 + b4.toNat * 16 + b3.toNat * 8 +
      b2.toNat * 4 + b1.toNat * 2 + b0.toNat)) = [b7, b6, b5, b4, b3, b2, b1, b0] := by
  cases b7 <;> cases b6 <;> cases b5 <;> cases b4 <;> cases b3 <;> cases b2 <;> cases b1 <;> cases b0 <;> rfl

theorem getElem?_byteBits (b : Byte) {j : Nat} (h : j < 8) : (byteBits b)[j]? = some (b.getLsbD (7 - j)) := by
  rw [List.getElem?_eq_getElem (by simpa using h), getElem_byteBits]

theorem byteBits_injective {a b : Byte} (h : byteBits a = byteBits b) : a = b := by
  apply BitVec.eq_of_getLsbD_eq
  intro i hi
  have ha := getElem?_byteBits a (j := 7 - i) (by omega)
  have hb := getElem?_byteBits b (j := 7 - i) (by omega)
  rw [h, hb, show 7 - (7 - i) = i by omega] at ha
  exact (Option.some.inj ha).symm

theorem exists_byteBits (b : Byte) : ∃ b7 b6 b5 b4 b3 b2 b1 b0 : Bool, byteBits b = [b7, b6, b5, b4, b3, b2, b1, b0] :=
  ⟨_, _, _, _, _, _, _, _, rfl⟩

/-- The bytes a byte's own bits pack into. -/
theorem packBytes_byteBits_append (b : Byte) (s : Bits) : packBytes (byteBits b ++ s) = b :: packBytes s := by
  obtain ⟨b7, b6, b5, b4, b3, b2, b1, b0, hb⟩ := exists_byteBits b
  rw [hb]
  simp only [List.cons_append, List.nil_append, packBytes]
  rw [byteBits_injective ((byteBits_pack b7 b6 b5 b4 b3 b2 b1 b0).trans hb.symm)]

/-- Packing undoes serialising (rule R116). -/
theorem packBytes_bytesToBits (bs : Bytes) : packBytes (bytesToBits bs) = bs := by
  induction bs with
  | nil => rfl
  | cons b bs ih => rw [bytesToBits, packBytes_byteBits_append, ih]

/-- Serialising undoes packing, for whole groups of 8 bits (rule R116). -/
theorem bytesToBits_packBytes (s : Bits) (h : s.length % 8 = 0) : bytesToBits (packBytes s) = s := by
  induction s using packBytes.induct with
  | case1 b7 b6 b5 b4 b3 b2 b1 b0 rest ih =>
    simp only [packBytes, bytesToBits, byteBits_pack, ih (by simp only [List.length_cons] at h; omega)]
    rfl
  | case2 t ht =>
    have hl : t.length < 8 := by
      by_contra hc
      match t, hc with
      | b7 :: b6 :: b5 :: b4 :: b3 :: b2 :: b1 :: b0 :: rest, _ => exact ht _ _ _ _ _ _ _ _ _ rfl
      | [], hc | [_], hc | [_, _], hc | [_, _, _], hc | [_, _, _, _], hc | [_, _, _, _, _], hc
      | [_, _, _, _, _, _], hc | [_, _, _, _, _, _, _], hc => simp at hc
    have : t = [] := List.length_eq_zero_iff.mp (by omega)
    subst this
    rfl

theorem length_packBytes (s : Bits) (h : s.length % 8 = 0) : (packBytes s).length = s.length / 8 := by
  have := congrArg List.length (bytesToBits_packBytes s h)
  rw [length_bytesToBits] at this
  omega

theorem bitsToBytes_ok {s : Bits} (h : s.length % 8 = 0) : bitsToBytes s = .ok (packBytes s) := by
  simp [bitsToBytes, h]

/-- Bit `7 - j` of packed byte `i` is bit `8 * i + j` of the sequence (rule R111). -/
theorem getLsbD_packBytes (s : Bits) (h : s.length % 8 = 0) (i j : Nat) (hj : j < 8) :
    s[8 * i + j]? = ((packBytes s)[i]?).map fun b => b.getLsbD (7 - j) := by
  rw [← getElem?_bytesToBits _ _ _ hj, bytesToBits_packBytes s h]

/-- The bits of `setLsb` (rule R112). -/
theorem getLsbD_setLsb (v : Byte) (b : Bool) (i : Nat) (hi : i < 8) :
    (setLsb v b).getLsbD i = if i = 0 then b else v.getLsbD i := by
  have h0 : ∀ i < 8, (0xFE#8).getLsbD i = decide (i ≠ 0) := by decide
  simp only [setLsb, BitVec.getLsbD_or, BitVec.getLsbD_and, BitVec.getLsbD_setWidth, BitVec.getLsbD_ofBool, h0 i hi]
  by_cases h : i = 0 <;> simp [h, hi]

@[simp] theorem getLsbD_zero_setLsb (v : Byte) (b : Bool) : (setLsb v b).getLsbD 0 = b := by
  rw [getLsbD_setLsb v b 0 (by omega), if_pos rfl]

end Sys2Proof.Machine
end

