-- ==== Sys2Proof/Laws/Framer.lean ====
section
/-! SUPPORT. What the framer's functions do: the header's bits and value (41_framer.md rule R130), `unframeBits` as the
inverse of `frameBits` (rule R135), and what the shared tail of UNFRAME and EXTRACT answers. -/

namespace Sys2Proof.Machine

/-- The bits of a number, most significant first, sum up to it. -/
theorem sum_testBit (n k : Nat) :
    ((List.range k).map fun j => (n.testBit (k - 1 - j)).toNat * 2 ^ (k - 1 - j)).sum = n % 2 ^ k := by
  induction k with
  | zero => simp [Nat.mod_one]
  | succ k ih =>
    rw [List.range_succ_eq_map, List.map_cons, List.sum_cons, List.map_map, Nat.mod_pow_succ, ← ih]
    have hb : (n.testBit k).toNat = n / 2 ^ k % 2 := Nat.toNat_testBit n k
    have hf : (List.range k).map ((fun j => (n.testBit (k + 1 - 1 - j)).toNat * 2 ^ (k + 1 - 1 - j)) ∘ Nat.succ) =
        (List.range k).map fun j => (n.testBit (k - 1 - j)).toNat * 2 ^ (k - 1 - j) := by
      apply List.map_congr_left
      intro j _
      simp [show k - (j + 1) = k - 1 - j by omega]
    rw [hf]
    simp only [Nat.add_sub_cancel, Nat.sub_zero, hb]
    rw [Nat.mul_comm, Nat.add_comm]

/-- The header depends on the first 32 bits only. -/
theorem hdrValue_congr {s t : Bits} (h : ∀ j < 32, s.getD j false = t.getD j false) : hdrValue s = hdrValue t := by
  refine congrArg List.sum (List.map_congr_left ?_)
  intro j hj
  rw [h j (by simpa using hj)]

@[simp] theorem length_be32 (n : Nat) : (be32 n).length = 4 := rfl

/-- Bit `j` of the header is bit `31 - j` of the length (rule R130). -/
theorem getElem?_header (n j : Nat) (hj : j < 32) : (bytesToBits (be32 n))[j]? = some (n.testBit (31 - j)) := by
  rw [getElem?_bytesToBits']
  have hcases : j / 8 = 0 ∨ j / 8 = 1 ∨ j / 8 = 2 ∨ j / 8 = 3 := by omega
  rcases hcases with h | h | h | h <;>
    simp only [h, be32, List.getElem?_cons_zero, List.getElem?_cons_succ, Option.map_some, BitVec.getLsbD_ofNat,
      Nat.testBit_div_two_pow] <;>
    rw [show decide (7 - j % 8 < 8) = true from decide_eq_true (by omega), Bool.true_and] <;>
    congr 2 <;> omega

/-- Reading back a header gives the length, whatever follows it (rule R130). -/
theorem hdrValue_header (n : Nat) (t : Bits) (hn : n < 2 ^ 32) : hdrValue (bytesToBits (be32 n) ++ t) = n := by
  unfold hdrValue
  rw [List.map_congr_left (g := fun j => (n.testBit (32 - 1 - j)).toNat * 2 ^ (32 - 1 - j)), sum_testBit,
    Nat.mod_eq_of_lt hn]
  intro j hj
  have hj : j < 32 := by simpa using hj
  have : (bytesToBits (be32 n) ++ t)[j]? = some (n.testBit (31 - j)) := by
    rw [List.getElem?_append_left (by simp; omega), getElem?_header n j hj]
  simp [List.getD, this]

/-- A header's value is a 32-bit number (rule R130). -/
theorem hdrValue_lt (s : Bits) : hdrValue s < 2 ^ 32 := by
  have h : ∀ k, ((List.range k).map fun j => (s.getD (32 - k + j) false).toNat * 2 ^ (k - 1 - j)).sum < 2 ^ k ∨ 32 < k := by
    intro k
    induction k with
    | zero => left; simp
    | succ k ih =>
      by_cases hk : 32 < k + 1
      · exact .inr hk
      · left
        rcases ih with ih | ih
        · rw [List.range_succ_eq_map, List.map_cons, List.sum_cons, List.map_map]
          have hf : (List.range k).map
              ((fun j => (s.getD (32 - (k + 1) + j) false).toNat * 2 ^ (k + 1 - 1 - j)) ∘ Nat.succ) =
              (List.range k).map fun j => (s.getD (32 - k + j) false).toNat * 2 ^ (k - 1 - j) := by
            apply List.map_congr_left
            intro j _
            simp only [Function.comp, Nat.succ_eq_add_one]
            rw [show 32 - (k + 1) + (j + 1) = 32 - k + j by omega, show k + 1 - 1 - (j + 1) = k - 1 - j by omega]
          rw [hf]
          have hb : (s.getD (32 - (k + 1) + 0) false).toNat ≤ 1 := Bool.toNat_le _
          have : (s.getD (32 - (k + 1) + 0) false).toNat * 2 ^ (k + 1 - 1 - 0) ≤ 1 * 2 ^ k := Nat.mul_le_mul_right _ hb
          rw [Nat.pow_succ]
          omega
        · omega
  have h32 : hdrValue s = ((List.range 32).map fun j => (s.getD (32 - 32 + j) false).toNat * 2 ^ (32 - 1 - j)).sum :=
    congrArg List.sum (List.map_congr_left fun j _ => by rw [Nat.sub_self, Nat.zero_add])
  rw [h32]
  exact (h 32).resolve_right (by omega)

/-- The framed bits of a payload short enough (rule R132). -/
theorem frameBits_ok {p : Bytes} (h : p.length ≤ Config.maxLen) : frameBits p = .ok (bytesToBits (be32 p.length ++ p)) := by
  simp only [frameBits]
  rw [if_neg (by omega)]

theorem length_framed (p : Bytes) : (bytesToBits (be32 p.length ++ p)).length = 32 + 8 * p.length := by
  simp; omega

/-- The payload a framed sequence holds has the length its header states (rule R131). -/
theorem length_payload {s : Bits} {n : Nat} (h : 32 + 8 * n ≤ s.length) :
    (packBytes ((s.drop 32).take (8 * n))).length = n := by
  have hl : ((s.drop 32).take (8 * n)).length = 8 * n := by rw [List.length_take, List.length_drop]; omega
  rw [length_packBytes _ (by rw [hl]; omega), hl]
  omega

/-- What `unframeBits` gives where both its checks pass (rule R131). -/
theorem unframeBits_ok {s : Bits} (h : 32 + 8 * hdrValue s ≤ s.length) :
    unframeBits s = .ok (packBytes ((s.drop 32).take (8 * hdrValue s))) := by
  have hl : ((s.drop 32).take (8 * hdrValue s)).length % 8 = 0 := by simp; omega
  simp only [unframeBits, Config.hdrW]
  rw [if_neg (by omega), if_neg (by omega), bitsToBytes_ok hl]

/-- Unframing undoes framing, whatever follows the framed bits (rule R135). -/
theorem unframeBits_framed (p : Bytes) (t : Bits) (h : p.length ≤ Config.maxLen) :
    unframeBits (bytesToBits (be32 p.length ++ p) ++ t) = .ok p := by
  have hv : hdrValue (bytesToBits (be32 p.length ++ p) ++ t) = p.length := by
    rw [bytesToBits_append, List.append_assoc, hdrValue_header]
    simp only [Config.maxLen] at h
    omega
  rw [unframeBits_ok (by rw [hv, List.length_append, length_framed]; omega), hv, bytesToBits_append, List.append_assoc]
  rw [List.drop_left' (by simp), List.take_left' (by simp), packBytes_bytesToBits]

/-- `unframeBits` never raises FRAMING (rule R136). -/
theorem unframeBits_error {s : Bits} {e : ErrCode} (h : unframeBits s = .error e) : e = .corrupt := by
  by_cases hc : 32 + 8 * hdrValue s ≤ s.length
  · rw [unframeBits_ok hc] at h; cases h
  · simp only [unframeBits, Config.hdrW] at h
    split at h
    · cases h; rfl
    · rw [if_pos (by omega)] at h; cases h; rfl

/-- The payload's plan where its checks pass (rules R134 and R171). -/
theorem planPayload_ok {c : Config} {s : Bits} (h : 32 + 8 * hdrValue s ≤ s.length) (hp : hdrValue s ≤ c.paySize) :
    planPayload c s = .ok
      { pay := cellsFrom 0 (packBytes ((s.drop 32).take (8 * hdrValue s)))
        outcnt := some (BitVec.ofNat 64 (hdrValue s))
        hdr := some (BitVec.ofNat 32 (hdrValue s)) } := by
  simp only [planPayload, Config.hdrW]
  rw [if_neg (by omega), if_neg (by omega), if_neg (by omega), unframeBits_ok h]
  rfl

theorem planPayload_corrupt {c : Config} {s : Bits} (h : s.length < 32 ∨ s.length < 32 + 8 * hdrValue s) :
    planPayload c s = .error .corrupt := by
  unfold planPayload
  by_cases h1 : s.length < 32
  · rw [if_pos h1]
  · rw [if_neg h1, if_pos (h.resolve_left h1)]

theorem planPayload_bounds {c : Config} {s : Bits} (h1 : 32 + 8 * hdrValue s ≤ s.length) (h2 : c.paySize < hdrValue s) :
    planPayload c s = .error .bounds := by
  unfold planPayload
  rw [if_neg (show ¬s.length < 32 by omega), if_neg (Nat.not_lt.mpr h1), if_pos h2]

/-- The payload's plan where a check raises an error (rules R134 and R171). -/
theorem planPayload_error {c : Config} {s : Bits} {e : ErrCode} (h : planPayload c s = .error e) :
    (e = .corrupt ∧ s.length < 32 + 8 * hdrValue s) ∨
    (e = .bounds ∧ 32 + 8 * hdrValue s ≤ s.length ∧ c.paySize < hdrValue s) := by
  by_cases hc : 32 + 8 * hdrValue s ≤ s.length
  · by_cases hp : hdrValue s ≤ c.paySize
    · rw [planPayload_ok hc hp] at h; cases h
    · simp only [planPayload, Config.hdrW] at h
      rw [if_neg (by omega), if_neg (by omega), if_pos (by omega)] at h
      cases h
      exact .inr ⟨rfl, hc, by omega⟩
  · simp only [planPayload, Config.hdrW] at h
    split at h
    · cases h; exact .inl ⟨rfl, by omega⟩
    · rw [if_pos (by omega)] at h; cases h; exact .inl ⟨rfl, by omega⟩

end Sys2Proof.Machine
end

