-- ==== Sys2Proof/Laws/Grid.lean ====
section
/-! SUPPORT. The grid's slots (20_memory.md rule R65), the cells the distributor writes (42_embedder.md rule R152) and
the bits the collector reads (43_extractor.md rule R170). -/

namespace Sys2Proof.Machine

/-- No two slots share a cell (rule R152). -/
theorem slotAddr_injective {ch j k : Nat} (hc : 3 ≤ ch) (h : slotAddr ch j = slotAddr ch k) : j = k := by
  simp only [slotAddr, Config.uch] at h
  have hj := Nat.div_add_mod j 3
  have hk := Nat.div_add_mod k 3
  have hj3 := Nat.mod_lt j (show 0 < 3 by omega)
  have hk3 := Nat.mod_lt k (show 0 < 3 by omega)
  rcases Nat.lt_trichotomy (j / 3) (k / 3) with hlt | he | hlt
  · have : (j / 3 + 1) * ch ≤ k / 3 * ch := Nat.mul_le_mul_right ch hlt
    rw [Nat.add_mul] at this
    omega
  · rw [he] at h
    omega
  · have : (k / 3 + 1) * ch ≤ j / 3 * ch := Nat.mul_le_mul_right ch hlt
    rw [Nat.add_mul] at this
    omega

/-- The channel of a slot's cell is 0, 1 or 2: no slot addresses channel 3 (rule R65). -/
theorem slotAddr_mod {ch k : Nat} (hc : 3 ≤ ch) : slotAddr ch k % ch = k % 3 := by
  simp only [slotAddr, Config.uch]
  rw [Nat.add_comm, Nat.add_mul_mod_self_right, Nat.mod_eq_of_lt]
  exact Nat.lt_of_lt_of_le (Nat.mod_lt _ (by omega)) hc

/-- The pixel of a slot's cell (rule R65). -/
theorem slotAddr_div {ch k : Nat} (hc : 3 ≤ ch) : slotAddr ch k / ch = k / 3 := by
  simp only [slotAddr, Config.uch]
  rw [Nat.add_comm, Nat.add_mul_div_right _ _ (by omega), Nat.div_eq_of_lt, Nat.zero_add]
  exact Nat.lt_of_lt_of_le (Nat.mod_lt _ (by omega)) hc

/-- Every slot of the grid is a cell of the grid (rule R151). -/
theorem slotAddr_lt {ch n k : Nat} (hc : 3 ≤ ch) (hk : k < n * 3) : slotAddr ch k < n * ch := by
  have hd : k / 3 + 1 ≤ n := by omega
  have : (k / 3 + 1) * ch ≤ n * ch := Nat.mul_le_mul_right ch hd
  rw [Nat.add_mul] at this
  have := Nat.mod_lt k (show 0 < 3 by omega)
  simp only [slotAddr, Config.uch]
  omega

/-- What the geometry check says (rule R151). -/
theorem geometryOk_iff (s : State) :
    geometryOk s = true ↔ (s.chan = 3 ∨ s.chan = 4) ∧ s.gridW * s.gridH * s.chan ≤ s.cfg.pixSize := by
  simp [geometryOk]

theorem geometryOk_false {s : State} (h : ¬((s.chan = 3 ∨ s.chan = 4) ∧ s.gridW * s.gridH * s.chan ≤ s.cfg.pixSize)) :
    geometryOk s = false := by
  rw [← Bool.not_eq_true, geometryOk_iff]
  exact h

theorem three_le_chan {s : State} (h : geometryOk s = true) : 3 ≤ s.chan := by
  rcases ((geometryOk_iff s).mp h).1 with h | h <;> omega

/-- Where the geometry check passes, every slot of the grid is a cell of PIX. -/
theorem slotAddr_lt_pixSize {s : State} {k : Nat} (h : geometryOk s = true) (hk : k < capacity s) :
    slotAddr s.chan k < s.cfg.pixSize :=
  Nat.lt_of_lt_of_le (slotAddr_lt (three_le_chan h) hk) ((geometryOk_iff s).mp h).2

/-- The cells the distributor writes are those of the slots `k`, `k + 1`, … (rule R152). -/
theorem mem_distribute {s : State} {bits : Bits} {k : Nat} {c : Nat × Byte} (h : c ∈ distribute s k bits) :
    ∃ j, k ≤ j ∧ j < k + bits.length ∧ c.1 = slotAddr s.chan j := by
  induction bits generalizing k with
  | nil => simp [distribute] at h
  | cons b bs ih =>
    simp only [distribute, List.mem_cons] at h
    rcases h with rfl | h
    · exact ⟨k, by simp⟩
    · obtain ⟨j, h1, h2, h3⟩ := ih h
      exact ⟨j, by omega, by simp only [List.length_cons]; omega, h3⟩

/-- What the distributor puts into the cell of a slot it writes (rule R152). -/
theorem find_distribute {s : State} (hc : 3 ≤ s.chan) {bits : Bits} {k j : Nat} (hj : j < bits.length) :
    Memory.find (distribute s k bits) (slotAddr s.chan (k + j)) =
      some (setLsb (s.pixAt (slotAddr s.chan (k + j))) bits[j]) := by
  induction bits generalizing k j with
  | nil => simp at hj
  | cons b bs ih =>
    cases j with
    | zero => simp [distribute, Memory.find]
    | succ j =>
      have hne : slotAddr s.chan (k + (j + 1)) ≠ slotAddr s.chan k := fun e => by
        have := slotAddr_injective hc e
        omega
      have := ih (k := k + 1) (j := j) (by simpa using hj)
      rw [show k + 1 + j = k + (j + 1) by omega] at this
      simp only [distribute, Memory.find, if_neg hne, this, List.getElem_cons_succ]

/-- The distributor leaves every other cell alone (rule R154). -/
theorem find_distribute_none {s : State} {bits : Bits} {k a : Nat}
    (h : ∀ j < bits.length, a ≠ slotAddr s.chan (k + j)) : Memory.find (distribute s k bits) a = none := by
  apply Memory.find_none_of_forall_ne
  intro c hc e
  obtain ⟨j, h1, h2, h3⟩ := mem_distribute hc
  refine h (j - k) (by omega) ?_
  rw [show k + (j - k) = j by omega, ← h3, e]

@[simp] theorem length_collect (s : State) : (collect s).length = capacity s := by simp [collect]

@[simp] theorem getElem_collect (s : State) (k : Nat) (h : k < (collect s).length) :
    (collect s)[k] = (s.pixAt (slotAddr s.chan k)).getLsbD 0 := by simp [collect]

theorem getElem?_collect (s : State) {k : Nat} (h : k < capacity s) :
    (collect s)[k]? = some ((s.pixAt (slotAddr s.chan k)).getLsbD 0) := by
  rw [List.getElem?_eq_getElem (by simpa using h), getElem_collect]

end Sys2Proof.Machine
end

