-- ==== Sys2Proof/Laws/PerInstr.lean ====
section
/-! SUPPORT. What holds of every command as syntax, one lemma for each command: its word's fields are the opcode map's. -/

namespace Sys2Proof.Laws.Encoding

/-- The fields of a command's word: RSVD is 0, OP is the command's opcode, which is one of 1 to 7 (30_encoding.md rules
R90 and R91). -/
def Statement (i : Instr) : Prop :=
  rsvdField (encode i) = 0 ∧ opField (encode i) = opcode i ∧ 1 ≤ (opcode i).toNat ∧ (opcode i).toNat ≤ 7

theorem bytes2bits : Statement .bytes2bits := ⟨by decide, by decide, by decide, by decide⟩

theorem bits2bytes : Statement .bits2bytes := ⟨by decide, by decide, by decide, by decide⟩

theorem setlsb : Statement .setlsb := ⟨by decide, by decide, by decide, by decide⟩

theorem frame : Statement .frame := ⟨by decide, by decide, by decide, by decide⟩

theorem unframe : Statement .unframe := ⟨by decide, by decide, by decide, by decide⟩

theorem embed : Statement .embed := ⟨by decide, by decide, by decide, by decide⟩

theorem extract : Statement .extract := ⟨by decide, by decide, by decide, by decide⟩

end Sys2Proof.Laws.Encoding
end

