-- ==== Sys2Proof/Laws/State.lean ====
section
/-! SUPPORT. One lemma per field of State per named update, each true by unfolding the update once, so that no later proof
unfolds a record update. -/

namespace Sys2Proof.Machine

/-! `setWerr`: a dropped write sets WERR and nothing else. -/

@[simp] theorem setWerr_cfg (s : State) : (setWerr s).cfg = s.cfg := rfl
@[simp] theorem setWerr_done (s : State) : (setWerr s).done = s.done := rfl
@[simp] theorem setWerr_err (s : State) : (setWerr s).err = s.err := rfl
@[simp] theorem setWerr_werr (s : State) : (setWerr s).werr = true := rfl
@[simp] theorem setWerr_doneIe (s : State) : (setWerr s).doneIe = s.doneIe := rfl
@[simp] theorem setWerr_width (s : State) : (setWerr s).width = s.width := rfl
@[simp] theorem setWerr_height (s : State) : (setWerr s).height = s.height := rfl
@[simp] theorem setWerr_channels (s : State) : (setWerr s).channels = s.channels := rfl
@[simp] theorem setWerr_len (s : State) : (setWerr s).len = s.len := rfl
@[simp] theorem setWerr_bitcnt (s : State) : (setWerr s).bitcnt = s.bitcnt := rfl
@[simp] theorem setWerr_outcnt (s : State) : (setWerr s).outcnt = s.outcnt := rfl
@[simp] theorem setWerr_lsbIn (s : State) : (setWerr s).lsbIn = s.lsbIn := rfl
@[simp] theorem setWerr_lsbOut (s : State) : (setWerr s).lsbOut = s.lsbOut := rfl
@[simp] theorem setWerr_hdr (s : State) : (setWerr s).hdr = s.hdr := rfl
@[simp] theorem setWerr_eng (s : State) : (setWerr s).eng = s.eng := rfl
@[simp] theorem setWerr_pix (s : State) : (setWerr s).pix = s.pix := rfl
@[simp] theorem setWerr_pay (s : State) : (setWerr s).pay = s.pay := rfl
@[simp] theorem setWerr_bit (s : State) : (setWerr s).bit = s.bit := rfl
@[simp] theorem setWerr_rst (s : State) : (setWerr s).rst = s.rst := rfl
@[simp] theorem setWerr_pending (s : State) : (setWerr s).pending = s.pending := rfl
@[simp] theorem setWerr_log (s : State) : (setWerr s).log = s.log := rfl
@[simp] theorem setWerr_draws (s : State) : (setWerr s).draws = s.draws := rfl

/-! `writeStatus`: a write of STATUS clears DONE and WERR at most. -/

@[simp] theorem writeStatus_cfg (v : Word) (s : State) : (writeStatus v s).cfg = s.cfg := rfl
@[simp] theorem writeStatus_done (v : Word) (s : State) : (writeStatus v s).done = (s.done && !v.getLsbD 1) := rfl
@[simp] theorem writeStatus_err (v : Word) (s : State) : (writeStatus v s).err = s.err := rfl
@[simp] theorem writeStatus_werr (v : Word) (s : State) : (writeStatus v s).werr = (s.werr && !v.getLsbD 8) := rfl
@[simp] theorem writeStatus_doneIe (v : Word) (s : State) : (writeStatus v s).doneIe = s.doneIe := rfl
@[simp] theorem writeStatus_width (v : Word) (s : State) : (writeStatus v s).width = s.width := rfl
@[simp] theorem writeStatus_height (v : Word) (s : State) : (writeStatus v s).height = s.height := rfl
@[simp] theorem writeStatus_channels (v : Word) (s : State) : (writeStatus v s).channels = s.channels := rfl
@[simp] theorem writeStatus_len (v : Word) (s : State) : (writeStatus v s).len = s.len := rfl
@[simp] theorem writeStatus_bitcnt (v : Word) (s : State) : (writeStatus v s).bitcnt = s.bitcnt := rfl
@[simp] theorem writeStatus_outcnt (v : Word) (s : State) : (writeStatus v s).outcnt = s.outcnt := rfl
@[simp] theorem writeStatus_lsbIn (v : Word) (s : State) : (writeStatus v s).lsbIn = s.lsbIn := rfl
@[simp] theorem writeStatus_lsbOut (v : Word) (s : State) : (writeStatus v s).lsbOut = s.lsbOut := rfl
@[simp] theorem writeStatus_hdr (v : Word) (s : State) : (writeStatus v s).hdr = s.hdr := rfl
@[simp] theorem writeStatus_eng (v : Word) (s : State) : (writeStatus v s).eng = s.eng := rfl
@[simp] theorem writeStatus_pix (v : Word) (s : State) : (writeStatus v s).pix = s.pix := rfl
@[simp] theorem writeStatus_pay (v : Word) (s : State) : (writeStatus v s).pay = s.pay := rfl
@[simp] theorem writeStatus_bit (v : Word) (s : State) : (writeStatus v s).bit = s.bit := rfl
@[simp] theorem writeStatus_rst (v : Word) (s : State) : (writeStatus v s).rst = s.rst := rfl
@[simp] theorem writeStatus_pending (v : Word) (s : State) : (writeStatus v s).pending = s.pending := rfl
@[simp] theorem writeStatus_log (v : Word) (s : State) : (writeStatus v s).log = s.log := rfl
@[simp] theorem writeStatus_draws (v : Word) (s : State) : (writeStatus v s).draws = s.draws := rfl

/-! `accept`: accepting a command. -/

@[simp] theorem accept_cfg (w : Word) (s : State) : (accept w s).cfg = s.cfg := rfl
@[simp] theorem accept_done (w : Word) (s : State) : (accept w s).done = false := rfl
@[simp] theorem accept_err (w : Word) (s : State) : (accept w s).err = .ok := rfl
@[simp] theorem accept_werr (w : Word) (s : State) : (accept w s).werr = s.werr := rfl
@[simp] theorem accept_doneIe (w : Word) (s : State) : (accept w s).doneIe = s.doneIe := rfl
@[simp] theorem accept_width (w : Word) (s : State) : (accept w s).width = s.width := rfl
@[simp] theorem accept_height (w : Word) (s : State) : (accept w s).height = s.height := rfl
@[simp] theorem accept_channels (w : Word) (s : State) : (accept w s).channels = s.channels := rfl
@[simp] theorem accept_len (w : Word) (s : State) : (accept w s).len = s.len := rfl
@[simp] theorem accept_bitcnt (w : Word) (s : State) : (accept w s).bitcnt = s.bitcnt := rfl
@[simp] theorem accept_outcnt (w : Word) (s : State) : (accept w s).outcnt = s.outcnt := rfl
@[simp] theorem accept_lsbIn (w : Word) (s : State) : (accept w s).lsbIn = s.lsbIn := rfl
@[simp] theorem accept_lsbOut (w : Word) (s : State) : (accept w s).lsbOut = s.lsbOut := rfl
@[simp] theorem accept_hdr (w : Word) (s : State) : (accept w s).hdr = s.hdr := rfl
@[simp] theorem accept_eng (w : Word) (s : State) : (accept w s).eng = .busy w := rfl
@[simp] theorem accept_pix (w : Word) (s : State) : (accept w s).pix = s.pix := rfl
@[simp] theorem accept_pay (w : Word) (s : State) : (accept w s).pay = s.pay := rfl
@[simp] theorem accept_bit (w : Word) (s : State) : (accept w s).bit = s.bit := rfl
@[simp] theorem accept_rst (w : Word) (s : State) : (accept w s).rst = s.rst := rfl
@[simp] theorem accept_pending (w : Word) (s : State) : (accept w s).pending = s.pending := rfl
@[simp] theorem accept_log (w : Word) (s : State) : (accept w s).log = s.log := rfl
@[simp] theorem accept_draws (w : Word) (s : State) : (accept w s).draws = s.draws := rfl

/-! `completeErr`: completion with an error. -/

@[simp] theorem completeErr_cfg (e : ErrCode) (s : State) : (completeErr e s).cfg = s.cfg := rfl
@[simp] theorem completeErr_done (e : ErrCode) (s : State) : (completeErr e s).done = true := rfl
@[simp] theorem completeErr_err (e : ErrCode) (s : State) : (completeErr e s).err = e := rfl
@[simp] theorem completeErr_werr (e : ErrCode) (s : State) : (completeErr e s).werr = s.werr := rfl
@[simp] theorem completeErr_doneIe (e : ErrCode) (s : State) : (completeErr e s).doneIe = s.doneIe := rfl
@[simp] theorem completeErr_width (e : ErrCode) (s : State) : (completeErr e s).width = s.width := rfl
@[simp] theorem completeErr_height (e : ErrCode) (s : State) : (completeErr e s).height = s.height := rfl
@[simp] theorem completeErr_channels (e : ErrCode) (s : State) : (completeErr e s).channels = s.channels := rfl
@[simp] theorem completeErr_len (e : ErrCode) (s : State) : (completeErr e s).len = s.len := rfl
@[simp] theorem completeErr_bitcnt (e : ErrCode) (s : State) : (completeErr e s).bitcnt = s.bitcnt := rfl
@[simp] theorem completeErr_outcnt (e : ErrCode) (s : State) : (completeErr e s).outcnt = s.outcnt := rfl
@[simp] theorem completeErr_lsbIn (e : ErrCode) (s : State) : (completeErr e s).lsbIn = s.lsbIn := rfl
@[simp] theorem completeErr_lsbOut (e : ErrCode) (s : State) : (completeErr e s).lsbOut = s.lsbOut := rfl
@[simp] theorem completeErr_hdr (e : ErrCode) (s : State) : (completeErr e s).hdr = s.hdr := rfl
@[simp] theorem completeErr_eng (e : ErrCode) (s : State) : (completeErr e s).eng = .idle := rfl
@[simp] theorem completeErr_pix (e : ErrCode) (s : State) : (completeErr e s).pix = s.pix := rfl
@[simp] theorem completeErr_pay (e : ErrCode) (s : State) : (completeErr e s).pay = s.pay := rfl
@[simp] theorem completeErr_bit (e : ErrCode) (s : State) : (completeErr e s).bit = s.bit := rfl
@[simp] theorem completeErr_rst (e : ErrCode) (s : State) : (completeErr e s).rst = s.rst := rfl
@[simp] theorem completeErr_pending (e : ErrCode) (s : State) : (completeErr e s).pending = s.pending := rfl
@[simp] theorem completeErr_log (e : ErrCode) (s : State) : (completeErr e s).log = s.log := rfl
@[simp] theorem completeErr_draws (e : ErrCode) (s : State) : (completeErr e s).draws = s.draws := rfl

/-! `completeOk`: completion without an error. -/

@[simp] theorem completeOk_cfg (h : Held) (s : State) : (completeOk h s).cfg = s.cfg := rfl
@[simp] theorem completeOk_done (h : Held) (s : State) : (completeOk h s).done = true := rfl
@[simp] theorem completeOk_err (h : Held) (s : State) : (completeOk h s).err = .ok := rfl
@[simp] theorem completeOk_werr (h : Held) (s : State) : (completeOk h s).werr = s.werr := rfl
@[simp] theorem completeOk_doneIe (h : Held) (s : State) : (completeOk h s).doneIe = s.doneIe := rfl
@[simp] theorem completeOk_width (h : Held) (s : State) : (completeOk h s).width = s.width := rfl
@[simp] theorem completeOk_height (h : Held) (s : State) : (completeOk h s).height = s.height := rfl
@[simp] theorem completeOk_channels (h : Held) (s : State) : (completeOk h s).channels = s.channels := rfl
@[simp] theorem completeOk_len (h : Held) (s : State) : (completeOk h s).len = s.len := rfl
@[simp] theorem completeOk_bitcnt (h : Held) (s : State) : (completeOk h s).bitcnt = s.bitcnt := rfl
@[simp] theorem completeOk_outcnt (h : Held) (s : State) : (completeOk h s).outcnt = h.outcnt.getD s.outcnt := rfl
@[simp] theorem completeOk_lsbIn (h : Held) (s : State) : (completeOk h s).lsbIn = s.lsbIn := rfl
@[simp] theorem completeOk_lsbOut (h : Held) (s : State) : (completeOk h s).lsbOut = h.lsbOut.getD s.lsbOut := rfl
@[simp] theorem completeOk_hdr (h : Held) (s : State) : (completeOk h s).hdr = h.hdr.getD s.hdr := rfl
@[simp] theorem completeOk_eng (h : Held) (s : State) : (completeOk h s).eng = .idle := rfl
@[simp] theorem completeOk_pix (h : Held) (s : State) : (completeOk h s).pix = Memory.writeAll s.pix h.pix := rfl
@[simp] theorem completeOk_pay (h : Held) (s : State) : (completeOk h s).pay = Memory.writeAll s.pay h.pay := rfl
@[simp] theorem completeOk_bit (h : Held) (s : State) : (completeOk h s).bit = Memory.writeAll s.bit h.bit := rfl
@[simp] theorem completeOk_rst (h : Held) (s : State) : (completeOk h s).rst = s.rst := rfl
@[simp] theorem completeOk_pending (h : Held) (s : State) : (completeOk h s).pending = s.pending := rfl
@[simp] theorem completeOk_log (h : Held) (s : State) : (completeOk h s).log = s.log := rfl
@[simp] theorem completeOk_draws (h : Held) (s : State) : (completeOk h s).draws = s.draws := rfl

/-! `abandon`: abandoning a command touches its write set and the draw counter. -/

@[simp] theorem abandon_cfg (w : Word) (s : State) : (abandon w s).cfg = s.cfg := rfl
@[simp] theorem abandon_done (w : Word) (s : State) : (abandon w s).done = s.done := rfl
@[simp] theorem abandon_err (w : Word) (s : State) : (abandon w s).err = s.err := rfl
@[simp] theorem abandon_werr (w : Word) (s : State) : (abandon w s).werr = s.werr := rfl
@[simp] theorem abandon_doneIe (w : Word) (s : State) : (abandon w s).doneIe = s.doneIe := rfl
@[simp] theorem abandon_width (w : Word) (s : State) : (abandon w s).width = s.width := rfl
@[simp] theorem abandon_height (w : Word) (s : State) : (abandon w s).height = s.height := rfl
@[simp] theorem abandon_channels (w : Word) (s : State) : (abandon w s).channels = s.channels := rfl
@[simp] theorem abandon_len (w : Word) (s : State) : (abandon w s).len = s.len := rfl
@[simp] theorem abandon_bitcnt (w : Word) (s : State) : (abandon w s).bitcnt = s.bitcnt := rfl
@[simp] theorem abandon_outcnt (w : Word) (s : State) : (abandon w s).outcnt = s.outcnt := rfl
@[simp] theorem abandon_lsbIn (w : Word) (s : State) : (abandon w s).lsbIn = s.lsbIn := rfl
@[simp] theorem abandon_lsbOut (w : Word) (s : State) : (abandon w s).lsbOut = s.lsbOut := rfl
@[simp] theorem abandon_hdr (w : Word) (s : State) : (abandon w s).hdr = s.hdr := rfl
@[simp] theorem abandon_eng (w : Word) (s : State) : (abandon w s).eng = s.eng := rfl
@[simp] theorem abandon_pix (w : Word) (s : State) : (abandon w s).pix =
    Memory.writeAll s.pix ((heldOf w s).pix.map fun c => (c.1, Config.freeByte s.draws c.1)) := rfl
@[simp] theorem abandon_pay (w : Word) (s : State) : (abandon w s).pay =
    Memory.writeAll s.pay ((heldOf w s).pay.map fun c => (c.1, Config.freeByte s.draws c.1)) := rfl
@[simp] theorem abandon_bit (w : Word) (s : State) : (abandon w s).bit =
    Memory.writeAll s.bit ((heldOf w s).bit.map fun c => (c.1, Config.freeBit s.draws c.1)) := rfl
@[simp] theorem abandon_rst (w : Word) (s : State) : (abandon w s).rst = s.rst := rfl
@[simp] theorem abandon_pending (w : Word) (s : State) : (abandon w s).pending = s.pending := rfl
@[simp] theorem abandon_log (w : Word) (s : State) : (abandon w s).log = s.log := rfl
@[simp] theorem abandon_draws (w : Word) (s : State) : (abandon w s).draws = s.draws + 1 := rfl

/-! `resetRegisters`: the registers' reset values. -/

@[simp] theorem resetRegisters_cfg (s : State) : (resetRegisters s).cfg = s.cfg := rfl
@[simp] theorem resetRegisters_done (s : State) : (resetRegisters s).done = false := rfl
@[simp] theorem resetRegisters_err (s : State) : (resetRegisters s).err = .ok := rfl
@[simp] theorem resetRegisters_werr (s : State) : (resetRegisters s).werr = false := rfl
@[simp] theorem resetRegisters_doneIe (s : State) : (resetRegisters s).doneIe = false := rfl
@[simp] theorem resetRegisters_width (s : State) : (resetRegisters s).width = 0 := rfl
@[simp] theorem resetRegisters_height (s : State) : (resetRegisters s).height = 0 := rfl
@[simp] theorem resetRegisters_channels (s : State) : (resetRegisters s).channels = 3 := rfl
@[simp] theorem resetRegisters_len (s : State) : (resetRegisters s).len = 0 := rfl
@[simp] theorem resetRegisters_bitcnt (s : State) : (resetRegisters s).bitcnt = 0 := rfl
@[simp] theorem resetRegisters_outcnt (s : State) : (resetRegisters s).outcnt = 0 := rfl
@[simp] theorem resetRegisters_lsbIn (s : State) : (resetRegisters s).lsbIn = 0 := rfl
@[simp] theorem resetRegisters_lsbOut (s : State) : (resetRegisters s).lsbOut = 0 := rfl
@[simp] theorem resetRegisters_hdr (s : State) : (resetRegisters s).hdr = 0 := rfl
@[simp] theorem resetRegisters_eng (s : State) : (resetRegisters s).eng = .idle := rfl
@[simp] theorem resetRegisters_pix (s : State) : (resetRegisters s).pix = s.pix := rfl
@[simp] theorem resetRegisters_pay (s : State) : (resetRegisters s).pay = s.pay := rfl
@[simp] theorem resetRegisters_bit (s : State) : (resetRegisters s).bit = s.bit := rfl
@[simp] theorem resetRegisters_rst (s : State) : (resetRegisters s).rst = s.rst := rfl
@[simp] theorem resetRegisters_pending (s : State) : (resetRegisters s).pending = s.pending := rfl
@[simp] theorem resetRegisters_log (s : State) : (resetRegisters s).log = s.log := rfl
@[simp] theorem resetRegisters_draws (s : State) : (resetRegisters s).draws = s.draws := rfl

/-! `releaseRst`: releasing `rst`. -/

@[simp] theorem releaseRst_cfg (s : State) : (releaseRst s).cfg = s.cfg := rfl
@[simp] theorem releaseRst_done (s : State) : (releaseRst s).done = s.done := rfl
@[simp] theorem releaseRst_err (s : State) : (releaseRst s).err = s.err := rfl
@[simp] theorem releaseRst_werr (s : State) : (releaseRst s).werr = s.werr := rfl
@[simp] theorem releaseRst_doneIe (s : State) : (releaseRst s).doneIe = s.doneIe := rfl
@[simp] theorem releaseRst_width (s : State) : (releaseRst s).width = s.width := rfl
@[simp] theorem releaseRst_height (s : State) : (releaseRst s).height = s.height := rfl
@[simp] theorem releaseRst_channels (s : State) : (releaseRst s).channels = s.channels := rfl
@[simp] theorem releaseRst_len (s : State) : (releaseRst s).len = s.len := rfl
@[simp] theorem releaseRst_bitcnt (s : State) : (releaseRst s).bitcnt = s.bitcnt := rfl
@[simp] theorem releaseRst_outcnt (s : State) : (releaseRst s).outcnt = s.outcnt := rfl
@[simp] theorem releaseRst_lsbIn (s : State) : (releaseRst s).lsbIn = s.lsbIn := rfl
@[simp] theorem releaseRst_lsbOut (s : State) : (releaseRst s).lsbOut = s.lsbOut := rfl
@[simp] theorem releaseRst_hdr (s : State) : (releaseRst s).hdr = s.hdr := rfl
@[simp] theorem releaseRst_eng (s : State) : (releaseRst s).eng = s.eng := rfl
@[simp] theorem releaseRst_pix (s : State) : (releaseRst s).pix = s.pix := rfl
@[simp] theorem releaseRst_pay (s : State) : (releaseRst s).pay = s.pay := rfl
@[simp] theorem releaseRst_bit (s : State) : (releaseRst s).bit = s.bit := rfl
@[simp] theorem releaseRst_rst (s : State) : (releaseRst s).rst = false := rfl
@[simp] theorem releaseRst_pending (s : State) : (releaseRst s).pending = s.pending := rfl
@[simp] theorem releaseRst_log (s : State) : (releaseRst s).log = s.log := rfl
@[simp] theorem releaseRst_draws (s : State) : (releaseRst s).draws = s.draws := rfl

/-! `record`: putting a transaction on the log. -/

@[simp] theorem record_cfg (r : Record) (s : State) : (record r s).cfg = s.cfg := rfl
@[simp] theorem record_done (r : Record) (s : State) : (record r s).done = s.done := rfl
@[simp] theorem record_err (r : Record) (s : State) : (record r s).err = s.err := rfl
@[simp] theorem record_werr (r : Record) (s : State) : (record r s).werr = s.werr := rfl
@[simp] theorem record_doneIe (r : Record) (s : State) : (record r s).doneIe = s.doneIe := rfl
@[simp] theorem record_width (r : Record) (s : State) : (record r s).width = s.width := rfl
@[simp] theorem record_height (r : Record) (s : State) : (record r s).height = s.height := rfl
@[simp] theorem record_channels (r : Record) (s : State) : (record r s).channels = s.channels := rfl
@[simp] theorem record_len (r : Record) (s : State) : (record r s).len = s.len := rfl
@[simp] theorem record_bitcnt (r : Record) (s : State) : (record r s).bitcnt = s.bitcnt := rfl
@[simp] theorem record_outcnt (r : Record) (s : State) : (record r s).outcnt = s.outcnt := rfl
@[simp] theorem record_lsbIn (r : Record) (s : State) : (record r s).lsbIn = s.lsbIn := rfl
@[simp] theorem record_lsbOut (r : Record) (s : State) : (record r s).lsbOut = s.lsbOut := rfl
@[simp] theorem record_hdr (r : Record) (s : State) : (record r s).hdr = s.hdr := rfl
@[simp] theorem record_eng (r : Record) (s : State) : (record r s).eng = s.eng := rfl
@[simp] theorem record_pix (r : Record) (s : State) : (record r s).pix = s.pix := rfl
@[simp] theorem record_pay (r : Record) (s : State) : (record r s).pay = s.pay := rfl
@[simp] theorem record_bit (r : Record) (s : State) : (record r s).bit = s.bit := rfl
@[simp] theorem record_rst (r : Record) (s : State) : (record r s).rst = s.rst := rfl
@[simp] theorem record_pending (r : Record) (s : State) : (record r s).pending = s.pending := rfl
@[simp] theorem record_log (r : Record) (s : State) : (record r s).log = r :: s.log := rfl
@[simp] theorem record_draws (r : Record) (s : State) : (record r s).draws = s.draws := rfl

/-! `dropInput`: taking an input off. -/

@[simp] theorem dropInput_cfg (s : State) : (dropInput s).cfg = s.cfg := rfl
@[simp] theorem dropInput_done (s : State) : (dropInput s).done = s.done := rfl
@[simp] theorem dropInput_err (s : State) : (dropInput s).err = s.err := rfl
@[simp] theorem dropInput_werr (s : State) : (dropInput s).werr = s.werr := rfl
@[simp] theorem dropInput_doneIe (s : State) : (dropInput s).doneIe = s.doneIe := rfl
@[simp] theorem dropInput_width (s : State) : (dropInput s).width = s.width := rfl
@[simp] theorem dropInput_height (s : State) : (dropInput s).height = s.height := rfl
@[simp] theorem dropInput_channels (s : State) : (dropInput s).channels = s.channels := rfl
@[simp] theorem dropInput_len (s : State) : (dropInput s).len = s.len := rfl
@[simp] theorem dropInput_bitcnt (s : State) : (dropInput s).bitcnt = s.bitcnt := rfl
@[simp] theorem dropInput_outcnt (s : State) : (dropInput s).outcnt = s.outcnt := rfl
@[simp] theorem dropInput_lsbIn (s : State) : (dropInput s).lsbIn = s.lsbIn := rfl
@[simp] theorem dropInput_lsbOut (s : State) : (dropInput s).lsbOut = s.lsbOut := rfl
@[simp] theorem dropInput_hdr (s : State) : (dropInput s).hdr = s.hdr := rfl
@[simp] theorem dropInput_eng (s : State) : (dropInput s).eng = s.eng := rfl
@[simp] theorem dropInput_pix (s : State) : (dropInput s).pix = s.pix := rfl
@[simp] theorem dropInput_pay (s : State) : (dropInput s).pay = s.pay := rfl
@[simp] theorem dropInput_bit (s : State) : (dropInput s).bit = s.bit := rfl
@[simp] theorem dropInput_rst (s : State) : (dropInput s).rst = s.rst := rfl
@[simp] theorem dropInput_pending (s : State) : (dropInput s).pending = s.pending.tail := rfl
@[simp] theorem dropInput_log (s : State) : (dropInput s).log = s.log := rfl
@[simp] theorem dropInput_draws (s : State) : (dropInput s).draws = s.draws := rfl

/-! `holdWord`: holding a command word. -/

@[simp] theorem holdWord_cfg (w : Word) (s : State) : (holdWord w s).cfg = s.cfg := rfl
@[simp] theorem holdWord_done (w : Word) (s : State) : (holdWord w s).done = false := rfl
@[simp] theorem holdWord_err (w : Word) (s : State) : (holdWord w s).err = .ok := rfl
@[simp] theorem holdWord_werr (w : Word) (s : State) : (holdWord w s).werr = s.werr := rfl
@[simp] theorem holdWord_doneIe (w : Word) (s : State) : (holdWord w s).doneIe = s.doneIe := rfl
@[simp] theorem holdWord_width (w : Word) (s : State) : (holdWord w s).width = s.width := rfl
@[simp] theorem holdWord_height (w : Word) (s : State) : (holdWord w s).height = s.height := rfl
@[simp] theorem holdWord_channels (w : Word) (s : State) : (holdWord w s).channels = s.channels := rfl
@[simp] theorem holdWord_len (w : Word) (s : State) : (holdWord w s).len = s.len := rfl
@[simp] theorem holdWord_bitcnt (w : Word) (s : State) : (holdWord w s).bitcnt = s.bitcnt := rfl
@[simp] theorem holdWord_outcnt (w : Word) (s : State) : (holdWord w s).outcnt = s.outcnt := rfl
@[simp] theorem holdWord_lsbIn (w : Word) (s : State) : (holdWord w s).lsbIn = s.lsbIn := rfl
@[simp] theorem holdWord_lsbOut (w : Word) (s : State) : (holdWord w s).lsbOut = s.lsbOut := rfl
@[simp] theorem holdWord_hdr (w : Word) (s : State) : (holdWord w s).hdr = s.hdr := rfl
@[simp] theorem holdWord_eng (w : Word) (s : State) : (holdWord w s).eng = .busy w := rfl
@[simp] theorem holdWord_pix (w : Word) (s : State) : (holdWord w s).pix = s.pix := rfl
@[simp] theorem holdWord_pay (w : Word) (s : State) : (holdWord w s).pay = s.pay := rfl
@[simp] theorem holdWord_bit (w : Word) (s : State) : (holdWord w s).bit = s.bit := rfl
@[simp] theorem holdWord_rst (w : Word) (s : State) : (holdWord w s).rst = false := rfl
@[simp] theorem holdWord_pending (w : Word) (s : State) : (holdWord w s).pending = .engine :: s.pending := rfl
@[simp] theorem holdWord_log (w : Word) (s : State) : (holdWord w s).log = s.log := rfl
@[simp] theorem holdWord_draws (w : Word) (s : State) : (holdWord w s).draws = s.draws := rfl

end Sys2Proof.Machine
end

