-- ==== Sys2Proof/Laws/Plan.lean ====
section
/-! SUPPORT. What each command's plan answers, once for each: the held writes where its checks pass, and which error its
first failing check raises. Every meaning is the completion of its plan. -/

namespace Sys2Proof.Machine

/-- Every command's meaning is the completion of its plan, so it always answers a next state. -/
theorem exec_eq (i : Instr) (s : State) : exec i s = .next (complete (plan i s) s) := by cases i <;> rfl

theorem complete_error (e : ErrCode) (s : State) : complete (.error e) s = completeErr e s := rfl

theorem complete_ok (h : Held) (s : State) : complete (.ok h) s = completeOk h s := rfl

/-- BYTES2BITS where its check passes (rule R113). -/
theorem planBytes2bits_ok {s : State} (hp : s.lenNat ≤ s.cfg.paySize) (hb : 8 * s.lenNat ≤ s.cfg.bitSize) :
    planBytes2bits s = .ok
      { bit := cellsFrom 0 (bytesToBits (memRead s.payAt s.lenNat))
        outcnt := some (BitVec.ofNat 64 (8 * s.lenNat)) } := by
  simp only [planBytes2bits]
  rw [if_neg (by omega)]

/-- BYTES2BITS where its check fails (rule R113). -/
theorem planBytes2bits_bounds {s : State} (h : s.cfg.paySize < s.lenNat ∨ s.cfg.bitSize < 8 * s.lenNat) :
    planBytes2bits s = .error .bounds := by
  simp only [planBytes2bits]
  rw [if_pos h]

/-- BITS2BYTES where its checks pass (rule R114). -/
theorem planBits2bytes_ok {s : State} (hb : s.bitcntNat ≤ s.cfg.bitSize) (h8 : s.bitcntNat % 8 = 0)
    (hp : s.bitcntNat / 8 ≤ s.cfg.paySize) :
    planBits2bytes s = .ok
      { pay := cellsFrom 0 (packBytes (memRead s.bitAt s.bitcntNat))
        outcnt := some (BitVec.ofNat 64 (s.bitcntNat / 8)) } := by
  simp only [planBits2bytes]
  rw [if_neg (by omega), if_neg (by omega), if_neg (by omega), bitsToBytes_ok (by simpa using h8)]
  rfl

/-- FRAME where its checks pass (rule R133). -/
theorem planFrame_ok {s : State} (hl : s.lenNat ≤ Config.maxLen) (hp : s.lenNat ≤ s.cfg.paySize)
    (hb : 32 + 8 * s.lenNat ≤ s.cfg.bitSize) :
    planFrame s = .ok
      { bit := cellsFrom 0 (bytesToBits (be32 s.lenNat ++ memRead s.payAt s.lenNat))
        outcnt := some (BitVec.ofNat 64 (32 + 8 * s.lenNat))
        hdr := some (BitVec.ofNat 32 s.lenNat) } := by
  simp only [planFrame]
  rw [if_neg (by omega), if_neg (by simp only [Config.hdrW]; omega), frameBits_ok (by simpa using hl), length_memRead]
  rfl

/-- EMBED where its checks pass (rule R153). -/
theorem planEmbed_ok {s : State} (hg : geometryOk s = true) (hl : s.lenNat ≤ Config.maxLen)
    (hp : s.lenNat ≤ s.cfg.paySize) (hc : 32 + 8 * s.lenNat ≤ capacity s) :
    planEmbed s = .ok
      { pix := distribute s 0 (bytesToBits (be32 s.lenNat ++ memRead s.payAt s.lenNat))
        outcnt := some (BitVec.ofNat 64 (32 + 8 * s.lenNat))
        hdr := some (BitVec.ofNat 32 s.lenNat) } := by
  simp only [planEmbed]
  rw [if_neg (by simp [hg]), if_neg (by omega), if_neg (by omega), if_neg (by simp only [Config.hdrW]; omega),
    frameBits_ok (by simpa using hl), length_memRead]
  rfl

/-! Which error the first failing check raises. -/

theorem planBits2bytes_source {s : State} (h : s.cfg.bitSize < s.bitcntNat) : planBits2bytes s = .error .bounds := by
  unfold planBits2bytes
  rw [if_pos h]

theorem planBits2bytes_framing {s : State} (h1 : s.bitcntNat ≤ s.cfg.bitSize) (h2 : s.bitcntNat % 8 ≠ 0) :
    planBits2bytes s = .error .framing := by
  unfold planBits2bytes
  rw [if_neg (by omega), if_pos h2]

theorem planBits2bytes_bounds {s : State} (h1 : s.bitcntNat ≤ s.cfg.bitSize) (h2 : s.bitcntNat % 8 = 0)
    (h3 : s.cfg.paySize < s.bitcntNat / 8) : planBits2bytes s = .error .bounds := by
  unfold planBits2bytes
  rw [if_neg (by omega), if_neg (by omega), if_pos h3]

theorem planFrame_tooLarge {s : State} (h : 2 ^ 32 - 1 < s.lenNat) : planFrame s = .error .tooLarge := by
  unfold planFrame
  rw [if_pos h]

theorem planFrame_bounds {s : State} (h1 : s.lenNat ≤ 2 ^ 32 - 1)
    (h2 : s.cfg.paySize < s.lenNat ∨ s.cfg.bitSize < 32 + 8 * s.lenNat) : planFrame s = .error .bounds := by
  unfold planFrame
  rw [if_neg (Nat.not_lt.mpr h1), if_pos h2]

theorem planUnframe_source {s : State} (h : s.cfg.bitSize < s.bitcntNat) : planUnframe s = .error .bounds := by
  unfold planUnframe
  rw [if_pos h]

theorem planUnframe_eq {s : State} (h : s.bitcntNat ≤ s.cfg.bitSize) :
    planUnframe s = planPayload s.cfg (memRead s.bitAt s.bitcntNat) := by
  unfold planUnframe
  rw [if_neg (by omega)]

theorem planExtract_geometry {s : State} (h : geometryOk s = false) : planExtract s = .error .geometry := by
  unfold planExtract
  rw [if_pos h]

theorem planExtract_eq {s : State} (h : geometryOk s = true) : planExtract s = planPayload s.cfg (collect s) := by
  unfold planExtract
  rw [if_neg (by simp [h])]

theorem planEmbed_geometry {s : State} (h : geometryOk s = false) : planEmbed s = .error .geometry := by
  unfold planEmbed
  rw [if_pos h]

theorem planEmbed_tooLarge {s : State} (hg : geometryOk s = true) (h : 2 ^ 32 - 1 < s.lenNat) :
    planEmbed s = .error .tooLarge := by
  unfold planEmbed
  rw [if_neg (by simp [hg]), if_pos h]

theorem planEmbed_bounds {s : State} (hg : geometryOk s = true) (h1 : s.lenNat ≤ 2 ^ 32 - 1)
    (h2 : s.cfg.paySize < s.lenNat) : planEmbed s = .error .bounds := by
  unfold planEmbed
  rw [if_neg (by simp [hg]), if_neg (Nat.not_lt.mpr h1), if_pos h2]

theorem planEmbed_capacity {s : State} (hg : geometryOk s = true) (h1 : s.lenNat ≤ 2 ^ 32 - 1)
    (h2 : s.lenNat ≤ s.cfg.paySize) (h3 : capacity s < 32 + 8 * s.lenNat) : planEmbed s = .error .capacity := by
  unfold planEmbed
  rw [if_neg (by simp [hg]), if_neg (Nat.not_lt.mpr h1), if_neg (Nat.not_lt.mpr h2), if_pos h3]

/-- What a plan that raises no error holds, and the checks that passed: all that a command can write. -/
theorem plan_ok_cases {i : Instr} {s : State} {h : Held} (hp : plan i s = .ok h) :
    (i = .bytes2bits ∧ s.lenNat ≤ s.cfg.paySize ∧ 8 * s.lenNat ≤ s.cfg.bitSize ∧
      h = { bit := cellsFrom 0 (bytesToBits (memRead s.payAt s.lenNat))
            outcnt := some (BitVec.ofNat 64 (8 * s.lenNat)) }) ∨
    (i = .bits2bytes ∧ s.bitcntNat ≤ s.cfg.bitSize ∧ s.bitcntNat % 8 = 0 ∧ s.bitcntNat / 8 ≤ s.cfg.paySize ∧
      h = { pay := cellsFrom 0 (packBytes (memRead s.bitAt s.bitcntNat))
            outcnt := some (BitVec.ofNat 64 (s.bitcntNat / 8)) }) ∨
    (i = .setlsb ∧ h = { lsbOut := some (setLsb s.lsbValue s.lsbBit) }) ∨
    (i = .frame ∧ s.lenNat ≤ Config.maxLen ∧ s.lenNat ≤ s.cfg.paySize ∧ 32 + 8 * s.lenNat ≤ s.cfg.bitSize ∧
      h = { bit := cellsFrom 0 (bytesToBits (be32 s.lenNat ++ memRead s.payAt s.lenNat))
            outcnt := some (BitVec.ofNat 64 (32 + 8 * s.lenNat))
            hdr := some (BitVec.ofNat 32 s.lenNat) }) ∨
    (i = .embed ∧ geometryOk s = true ∧ s.lenNat ≤ Config.maxLen ∧ s.lenNat ≤ s.cfg.paySize ∧
      32 + 8 * s.lenNat ≤ capacity s ∧
      h = { pix := distribute s 0 (bytesToBits (be32 s.lenNat ++ memRead s.payAt s.lenNat))
            outcnt := some (BitVec.ofNat 64 (32 + 8 * s.lenNat))
            hdr := some (BitVec.ofNat 32 s.lenNat) }) ∨
    (∃ bits : Bits, ((i = .unframe ∧ s.bitcntNat ≤ s.cfg.bitSize ∧ bits = memRead s.bitAt s.bitcntNat) ∨
        (i = .extract ∧ geometryOk s = true ∧ bits = collect s)) ∧
      32 + 8 * hdrValue bits ≤ bits.length ∧ hdrValue bits ≤ s.cfg.paySize ∧
      h = { pay := cellsFrom 0 (packBytes ((bits.drop 32).take (8 * hdrValue bits)))
            outcnt := some (BitVec.ofNat 64 (hdrValue bits))
            hdr := some (BitVec.ofNat 32 (hdrValue bits)) }) := by
  have payload : ∀ {bits : Bits}, planPayload s.cfg bits = .ok h →
      32 + 8 * hdrValue bits ≤ bits.length ∧ hdrValue bits ≤ s.cfg.paySize ∧
      h = { pay := cellsFrom 0 (packBytes ((bits.drop 32).take (8 * hdrValue bits)))
            outcnt := some (BitVec.ofNat 64 (hdrValue bits))
            hdr := some (BitVec.ofNat 32 (hdrValue bits)) } := by
    intro bits hq
    by_cases h1 : 32 + 8 * hdrValue bits ≤ bits.length
    · by_cases h2 : hdrValue bits ≤ s.cfg.paySize
      · rw [planPayload_ok h1 h2] at hq
        exact ⟨h1, h2, (Except.ok.inj hq).symm⟩
      · simp only [planPayload, Config.hdrW] at hq
        rw [if_neg (by omega), if_neg (by omega), if_pos (by omega)] at hq
        cases hq
    · simp only [planPayload, Config.hdrW] at hq
      split at hq
      · cases hq
      · rw [if_pos (by omega)] at hq; cases hq
  cases i with
  | bytes2bits =>
    refine .inl ?_
    simp only [plan, planBytes2bits] at hp
    split at hp
    · cases hp
    · exact ⟨rfl, by omega, by omega, (Except.ok.inj hp).symm⟩
  | bits2bytes =>
    refine .inr (.inl ?_)
    by_cases h1 : s.bitcntNat ≤ s.cfg.bitSize
    · by_cases h2 : s.bitcntNat % 8 = 0
      · by_cases h3 : s.bitcntNat / 8 ≤ s.cfg.paySize
        · rw [plan, planBits2bytes_ok h1 h2 h3] at hp
          exact ⟨rfl, h1, h2, h3, (Except.ok.inj hp).symm⟩
        · simp only [plan, planBits2bytes] at hp
          rw [if_neg (by omega), if_neg (by omega), if_pos (by omega)] at hp
          cases hp
      · simp only [plan, planBits2bytes] at hp
        rw [if_neg (by omega), if_pos h2] at hp
        cases hp
    · simp only [plan, planBits2bytes] at hp
      rw [if_pos (by omega)] at hp
      cases hp
  | setlsb => exact .inr (.inr (.inl ⟨rfl, (Except.ok.inj hp).symm⟩))
  | frame =>
    refine .inr (.inr (.inr (.inl ?_)))
    by_cases h1 : s.lenNat ≤ Config.maxLen
    · by_cases h2 : s.lenNat ≤ s.cfg.paySize ∧ 32 + 8 * s.lenNat ≤ s.cfg.bitSize
      · rw [plan, planFrame_ok h1 h2.1 h2.2] at hp
        exact ⟨rfl, h1, h2.1, h2.2, (Except.ok.inj hp).symm⟩
      · simp only [plan, planFrame] at hp
        rw [if_neg (by omega), if_pos (by simp only [Config.hdrW]; omega)] at hp
        cases hp
    · simp only [plan, planFrame] at hp
      rw [if_pos (by omega)] at hp
      cases hp
  | unframe =>
    refine .inr (.inr (.inr (.inr (.inr ⟨_, .inl ⟨rfl, ?_, rfl⟩, ?_⟩))))
    all_goals
      simp only [plan, planUnframe] at hp
      split at hp
      · cases hp
    · omega
    · exact payload hp
  | embed =>
    refine .inr (.inr (.inr (.inr (.inl ?_))))
    by_cases h0 : geometryOk s = true
    · by_cases h1 : s.lenNat ≤ Config.maxLen
      · by_cases h2 : s.lenNat ≤ s.cfg.paySize
        · by_cases h3 : 32 + 8 * s.lenNat ≤ capacity s
          · rw [plan, planEmbed_ok h0 h1 h2 h3] at hp
            exact ⟨rfl, h0, h1, h2, h3, (Except.ok.inj hp).symm⟩
          · simp only [plan, planEmbed] at hp
            rw [if_neg (by simp [h0]), if_neg (by omega), if_neg (by omega), if_pos (by simp only [Config.hdrW]; omega)]
              at hp
            cases hp
        · simp only [plan, planEmbed] at hp
          rw [if_neg (by simp [h0]), if_neg (by omega), if_pos (by omega)] at hp
          cases hp
      · simp only [plan, planEmbed] at hp
        rw [if_neg (by simp [h0]), if_pos (by omega)] at hp
        cases hp
    · simp only [plan, planEmbed] at hp
      rw [if_pos (by simpa using h0)] at hp
      cases hp
  | extract =>
    refine .inr (.inr (.inr (.inr (.inr ⟨_, .inr ⟨rfl, ?_, rfl⟩, ?_⟩))))
    all_goals
      simp only [plan, planExtract] at hp
      split at hp
      · cases hp
    · next h => simpa using h
    · exact payload hp

/-- No plan raises the code of success. -/
theorem plan_ne_error_ok (i : Instr) (s : State) : plan i s ≠ .error .ok := by
  intro h
  cases i with
  | bytes2bits =>
    simp only [plan, planBytes2bits] at h
    split at h <;> cases h
  | bits2bytes =>
    simp only [plan, planBits2bytes] at h
    split at h
    · cases h
    split at h
    · cases h
    split at h
    · cases h
    · next h8 _ => rw [bitsToBytes_ok (by simpa using h8)] at h; cases h
  | setlsb => cases h
  | frame =>
    simp only [plan, planFrame] at h
    split at h
    · cases h
    split at h
    · cases h
    · rw [frameBits_ok (by rw [length_memRead]; omega)] at h; cases h
  | unframe =>
    simp only [plan, planUnframe] at h
    split at h
    · cases h
    · rcases planPayload_error h with ⟨h, -⟩ | ⟨h, -⟩ <;> cases h
  | embed =>
    simp only [plan, planEmbed] at h
    split at h
    · cases h
    split at h
    · cases h
    split at h
    · cases h
    split at h
    · cases h
    · rw [frameBits_ok (by rw [length_memRead]; omega)] at h; cases h
  | extract =>
    simp only [plan, planExtract] at h
    split at h
    · cases h
    · rcases planPayload_error h with ⟨h, -⟩ | ⟨h, -⟩ <;> cases h

/-- Which spaces and which result registers a command's held writes name (rule R91). -/
theorem plan_ok_writes {i : Instr} {s : State} {h : Held} (hp : plan i s = .ok h) :
    (i ≠ .embed → h.pix = []) ∧
    (i ≠ .bits2bytes → i ≠ .unframe → i ≠ .extract → h.pay = []) ∧
    (i ≠ .bytes2bits → i ≠ .frame → h.bit = []) ∧
    (i = .setlsb → h.outcnt = none) ∧
    (i = .bytes2bits ∨ i = .bits2bytes ∨ i = .setlsb → h.hdr = none) ∧
    (i ≠ .setlsb → h.lsbOut = none) := by
  rcases plan_ok_cases hp with ⟨hi, -, -, hh⟩ | ⟨hi, -, -, -, hh⟩ | ⟨hi, hh⟩ | ⟨hi, -, -, -, hh⟩ |
    ⟨hi, -, -, -, -, hh⟩ | ⟨bits, ⟨hi, -⟩ | ⟨hi, -⟩, -, -, hh⟩ <;> rw [hi, hh] <;> simp

/-- Every held cell of a plan lies in its space, so performing it keeps the memories' canonical form. -/
theorem plan_cells_lt {i : Instr} {s : State} {h : Held} (hp : plan i s = .ok h) :
    (∀ c ∈ h.pix, c.1 < s.cfg.pixSize) ∧ (∀ c ∈ h.pay, c.1 < s.cfg.paySize) ∧ (∀ c ∈ h.bit, c.1 < s.cfg.bitSize) := by
  have none_lt : ∀ {α : Type} {n : Nat}, ∀ c ∈ ([] : List (Nat × α)), c.1 < n := fun c hc => absurd hc (by simp)
  rcases plan_ok_cases hp with ⟨-, h1, h2, rfl⟩ | ⟨-, h1, h2, h3, rfl⟩ | ⟨-, rfl⟩ | ⟨-, h1, h2, h3, rfl⟩ |
    ⟨-, hg, h1, h2, h3, rfl⟩ | ⟨bits, -, h1, h2, rfl⟩
  · refine ⟨none_lt, none_lt, fun c hc => ?_⟩
    have := (mem_cellsFrom hc).2
    simp at this
    omega
  · refine ⟨none_lt, fun c hc => ?_, none_lt⟩
    have := (mem_cellsFrom hc).2
    rw [length_packBytes _ (by simpa using h2)] at this
    simp at this
    omega
  · exact ⟨none_lt, none_lt, none_lt⟩
  · refine ⟨none_lt, none_lt, fun c hc => ?_⟩
    have := (mem_cellsFrom hc).2
    simp at this
    omega
  · refine ⟨fun c hc => ?_, none_lt, none_lt⟩
    obtain ⟨j, -, hj, hc⟩ := mem_distribute hc
    rw [hc]
    apply slotAddr_lt_pixSize hg
    simp at hj
    omega
  · refine ⟨none_lt, fun c hc => ?_, none_lt⟩
    dsimp only at hc
    have hc := (mem_cellsFrom hc).2
    have hl := length_payload h1
    simp only [hl, Nat.zero_add] at hc
    exact Nat.lt_of_lt_of_le hc h2

/-- The parameter ranges, one by one (00_scope.md rules R10 and R11). -/
theorem wf_bounds {c : Config} (h : c.wf = true) :
    1 ≤ c.dimW ∧ c.dimW ≤ 31 ∧ 1 ≤ c.pixSize ∧ c.pixSize ≤ 2 ^ 34 ∧ 1 ≤ c.paySize ∧ c.paySize ≤ 2 ^ 32 - 1 ∧
      1 ≤ c.bitSize ∧ c.bitSize ≤ 2 ^ 36 := by
  simpa [Config.wf, and_assoc] using h

theorem toNat_count {n : Nat} (h : n < 2 ^ 64) : (BitVec.ofNat 64 n).toNat = n := by
  rw [BitVec.toNat_ofNat]
  exact Nat.mod_eq_of_lt h

theorem toNat_word {n : Nat} (h : n < 2 ^ 32) : (BitVec.ofNat 32 n).toNat = n := by
  rw [BitVec.toNat_ofNat]
  exact Nat.mod_eq_of_lt h

theorem distribute_congr {s t : State} (hc : t.chan = s.chan) (hp : t.pix = s.pix) (k : Nat) (bits : Bits) :
    distribute t k bits = distribute s k bits := by
  induction bits generalizing k with
  | nil => rfl
  | cons b bs ih => simp only [distribute, State.pixAt, hc, hp, ih]

/-- A plan reads the parameters, the operand registers and the memories, and nothing else (30_encoding.md rule R93). -/
theorem plan_congr {s t : State} (i : Instr) (hc : t.cfg = s.cfg) (hw : t.width = s.width) (hh : t.height = s.height)
    (hch : t.channels = s.channels) (hl : t.len = s.len) (hb : t.bitcnt = s.bitcnt) (hi : t.lsbIn = s.lsbIn)
    (hpix : t.pix = s.pix) (hpay : t.pay = s.pay) (hbit : t.bit = s.bit) : plan i t = plan i s := by
  have hpayAt : t.payAt = s.payAt := funext fun a => by rw [State.payAt, hpay]; rfl
  have hbitAt : t.bitAt = s.bitAt := funext fun a => by rw [State.bitAt, hbit]; rfl
  have hpixAt : t.pixAt = s.pixAt := funext fun a => by rw [State.pixAt, hpix]; rfl
  have hln : t.lenNat = s.lenNat := by rw [State.lenNat, hl]; rfl
  have hbn : t.bitcntNat = s.bitcntNat := by rw [State.bitcntNat, hb]; rfl
  have hchan : t.chan = s.chan := by rw [State.chan, hch]; rfl
  have hgw : t.gridW = s.gridW := by rw [State.gridW, hw]; rfl
  have hgh : t.gridH = s.gridH := by rw [State.gridH, hh]; rfl
  have hcap : capacity t = capacity s := by rw [capacity, hgw, hgh]; rfl
  have hg : geometryOk t = geometryOk s := by rw [geometryOk, hchan, hgw, hgh, hc]; rfl
  cases i with
  | bytes2bits => simp only [plan, planBytes2bits, hc, hln, hpayAt]
  | bits2bytes => simp only [plan, planBits2bytes, hc, hbn, hbitAt]
  | setlsb => simp only [plan, planSetlsb, State.lsbValue, State.lsbBit, hi]
  | frame => simp only [plan, planFrame, hc, hln, hpayAt]
  | unframe => simp only [plan, planUnframe, hc, hbn, hbitAt]
  | embed => simp only [plan, planEmbed, hc, hln, hpayAt, hg, hcap, distribute_congr hchan hpix]
  | extract => simp only [plan, planExtract, hc, hg, collect, hcap, hchan, hpixAt]

theorem length_framedBits (s : State) :
    (bytesToBits (be32 s.lenNat ++ memRead s.payAt s.lenNat)).length = 32 + 8 * s.lenNat := by
  simp; omega

/-- The held cells of a plan lie in the write set of 70_reset_and_hazards.md rule R221: below the new OUTCNT in BIT and
PAY, and in PIX the cells of the first OUTCNT slots. -/
theorem plan_writeSet {i : Instr} {s : State} {h : Held} (hw : s.cfg.wf = true) (hp : plan i s = .ok h) :
    (∀ c ∈ h.bit, c.1 < (h.outcnt.getD s.outcnt).toNat) ∧ (∀ c ∈ h.pay, c.1 < (h.outcnt.getD s.outcnt).toNat) ∧
    (∀ c ∈ h.pix, ∃ k < (h.outcnt.getD s.outcnt).toNat, c.1 = slotAddr s.chan k) := by
  have none_lt : ∀ {α : Type} {n : Nat}, ∀ c ∈ ([] : List (Nat × α)), c.1 < n := fun c hc => absurd hc (by simp)
  have none_slot : ∀ {n : Nat}, ∀ c ∈ ([] : List (Nat × Byte)), ∃ k < n, c.1 = slotAddr s.chan k :=
    fun c hc => absurd hc (by simp)
  have hc := wf_bounds hw
  rcases plan_ok_cases hp with ⟨-, h1, h2, rfl⟩ | ⟨-, h1, h2, h3, rfl⟩ | ⟨-, rfl⟩ | ⟨-, h1, h2, h3, rfl⟩ |
    ⟨-, hg, h1, h2, h3, rfl⟩ | ⟨bits, -, h1, h2, rfl⟩
  · refine ⟨fun c hm => ?_, none_lt, none_slot⟩
    have := (mem_cellsFrom hm).2
    simp only [Option.getD_some]
    rw [toNat_count (by omega)]
    simpa using this
  · refine ⟨none_lt, fun c hm => ?_, none_slot⟩
    have := (mem_cellsFrom hm).2
    rw [length_packBytes _ (by simpa using h2), length_memRead] at this
    simp only [Option.getD_some]
    rw [toNat_count (by omega)]
    omega
  · exact ⟨none_lt, none_lt, none_slot⟩
  · refine ⟨fun c hm => ?_, none_lt, none_slot⟩
    have := (mem_cellsFrom hm).2
    rw [length_framedBits] at this
    simp only [Option.getD_some]
    rw [toNat_count (by omega)]
    omega
  · refine ⟨none_lt, none_lt, fun c hm => ?_⟩
    obtain ⟨k, -, hk, h⟩ := mem_distribute hm
    rw [length_framedBits] at hk
    simp only [Option.getD_some]
    rw [toNat_count (by omega)]
    exact ⟨k, by omega, h⟩
  · refine ⟨none_lt, fun c hm => ?_, none_slot⟩
    dsimp only at hm
    have hm := (mem_cellsFrom hm).2
    have hl := length_payload h1
    simp only [hl, Nat.zero_add] at hm
    have e := toNat_count (n := hdrValue bits) (by omega)
    simp only [Option.getD_some]
    rw [e]
    exact hm

end Sys2Proof.Machine
end

