-- ==== Sys2Proof/Laws/Step.lean ====
section
/-! SUPPORT. All that one step can do: whose turn it is, how the engine's turn ends, and what a register write and a
memory write do. -/

namespace Sys2Proof.Machine

@[simp] theorem dropInput_of_nil {s : State} (h : s.pending = []) : dropInput s = s := by
  cases s
  simp_all [dropInput]

/-- Whose turn a step is. -/
theorem step_cases {s t : State} (h : step s = .next t) :
    (s.pending = [] ∧ engineTurn (dropInput s) = .next t) ∨
    (∃ rest, s.pending = .engine :: rest ∧ engineTurn (dropInput s) = .next t) ∨
    (∃ i rest, s.pending = i :: rest ∧ i ≠ .engine ∧ t = hostTurn i (dropInput s)) := by
  unfold step at h
  split at h
  · next hp => exact .inl ⟨hp, by rw [dropInput_of_nil hp]; exact h⟩
  · next rest hp => exact .inr (.inl ⟨rest, hp, h⟩)
  · next i rest hne hp =>
    cases h
    exact .inr (.inr ⟨i, rest, hp, fun e => hne e, rfl⟩)

theorem step_engine {s : State} (h : s.pending = [] ∨ ∃ rest, s.pending = .engine :: rest) :
    step s = engineTurn (dropInput s) := by
  rcases h with h | ⟨rest, h⟩
  · rw [dropInput_of_nil h]; simp [step, h]
  · simp [step, h]

theorem step_host {s : State} {i : Input} {rest : List Input} (h : s.pending = i :: rest) (hi : i ≠ .engine) :
    step s = .next (hostTurn i (dropInput s)) := by
  unfold step
  split
  · simp_all
  · simp_all
  · simp_all

/-- How the engine's turn ends (60_exceptions.md rules R191 and R192, 30_encoding.md rule R92). -/
theorem engineTurn_cases {s t : State} (h : engineTurn s = .next t) :
    ((s.rst = true ∨ s.eng = .idle) ∧ t = s) ∨
    (∃ w i, s.rst = false ∧ s.eng = .busy w ∧ decode w = .ok i ∧ t = complete (plan i s) s) ∨
    (∃ w e, s.rst = false ∧ s.eng = .busy w ∧ decode w = .error e ∧ t = completeErr .illegalOp s) := by
  unfold engineTurn at h
  split at h
  · next w hr he =>
    unfold completeWord at h
    split at h
    · next i hd =>
      rw [exec_eq] at h
      cases h
      exact .inr (.inl ⟨w, i, hr, he, hd, rfl⟩)
    · next e hd =>
      cases h
      exact .inr (.inr ⟨w, e, hr, he, hd, rfl⟩)
  · next hn =>
    cases h
    refine .inl ⟨?_, rfl⟩
    cases hr : s.rst with
    | true => exact .inl rfl
    | false =>
      cases he : s.eng with
      | idle => exact .inr rfl
      | busy w => exact absurd he (hn w hr)

theorem engineTurn_busy {s : State} {w : Word} (hr : s.rst = false) (he : s.eng = .busy w) :
    engineTurn s = completeWord w s := by
  simp [engineTurn, hr, he]

theorem engineTurn_idle {s : State} (he : s.eng = .idle) : engineTurn s = .next s := by
  simp [engineTurn, he]

/-- Every completion leaves ENG idle with DONE set. -/
theorem complete_status (r : Except ErrCode Held) (s : State) :
    (complete r s).eng = .idle ∧ (complete r s).done = true := by cases r <;> exact ⟨rfl, rfl⟩

/-- What a completion never touches. -/
theorem complete_frame (r : Except ErrCode Held) (s : State) :
    complete r s = { s with
      done := true, eng := .idle, err := (complete r s).err, pix := (complete r s).pix, pay := (complete r s).pay,
      bit := (complete r s).bit, outcnt := (complete r s).outcnt, hdr := (complete r s).hdr,
      lsbOut := (complete r s).lsbOut } := by cases r <;> rfl

theorem busy_iff (s : State) : s.busy = true ↔ ∃ w, s.eng = .busy w := by
  unfold State.busy
  split <;> simp_all

theorem busy_of_eng {s : State} {w : Word} (h : s.eng = .busy w) : s.busy = true := (busy_iff s).mpr ⟨w, h⟩

theorem not_busy_iff (s : State) : s.busy = false ↔ s.eng = .idle := by
  unfold State.busy
  split <;> simp_all

/-- What a register write does: nothing, the loss of a guarded write while busy, or the register's own effect. -/
theorem portWrite_cases (off : BitVec 8) (v : Word) (s : State) :
    (Reg.ofOffset off = none ∧ portWrite off v s = s) ∨
    (∃ r, Reg.ofOffset off = some r ∧ s.busy = true ∧ r.guarded = true ∧ portWrite off v s = setWerr s) ∨
    (∃ r, Reg.ofOffset off = some r ∧ (s.busy = false ∨ r.guarded = false) ∧ portWrite off v s = storeReg v s r) := by
  unfold portWrite
  split
  · next h => exact .inl ⟨h, rfl⟩
  · next r h =>
    unfold writeReg
    split
    · next hg =>
      simp only [Bool.and_eq_true] at hg
      exact .inr (.inl ⟨r, h, hg.1, hg.2, rfl⟩)
    · next hg => exact .inr (.inr ⟨r, h, by simpa [Bool.and_eq_true, -not_and, not_and_or] using hg, rfl⟩)

/-- What a memory write does. -/
theorem memPortWrite_cases (sp : Space) (a v : Nat) (s : State) :
    (s.busy = true ∧ memPortWrite sp a v s = setWerr s) ∨
    (s.busy = false ∧ s.cfg.size sp ≤ a ∧ memPortWrite sp a v s = s) ∨
    (s.busy = false ∧ a < s.cfg.size sp ∧ memPortWrite sp a v s = storeCell sp a v s) := by
  unfold memPortWrite
  split
  · next h => exact .inl ⟨h, rfl⟩
  · next h =>
    split
    · next h' => exact .inr (.inl ⟨by simpa using h, h', rfl⟩)
    · next h' => exact .inr (.inr ⟨by simpa using h, by omega, rfl⟩)

/-- The held cells of an abandoned command lie in their spaces. -/
theorem heldOf_cells_lt (w : Word) (s : State) :
    (∀ c ∈ (heldOf w s).pix, c.1 < s.cfg.pixSize) ∧ (∀ c ∈ (heldOf w s).pay, c.1 < s.cfg.paySize) ∧
    (∀ c ∈ (heldOf w s).bit, c.1 < s.cfg.bitSize) := by
  unfold heldOf
  split
  · simp
  · split
    · simp
    · next h hp => exact plan_cells_lt hp

/-! Transactions in the words of the statements. While `rst` is held only a memory read is as at any other moment. -/

theorem writes_of {s t : State} {off : BitVec 8} {v : Word} (hr : s.rst = false)
    (h : ∀ rest, portWrite off v { s with pending := rest } = { t with pending := rest, log := s.log }) :
    s.writes off v t := by
  intro rest
  rw [step_host (rest := rest) rfl (by simp)]
  change Host.Outcome.next (record _ (if s.rst = true then _ else portWrite off v { s with pending := rest })) = _
  rw [if_neg (by simp [hr]), h]
  rfl

theorem reads_of {s : State} {off : BitVec 8} {v : Word} (hr : s.rst = false)
    (h : ∀ rest, portRead off { s with pending := rest } = v) : s.reads off v.toNat := by
  intro rest
  rw [step_host (rest := rest) rfl (by simp)]
  change Host.Outcome.next (record ⟨_, _, _, (portRead off (if s.rst = true then _ else { s with pending := rest })).toNat⟩
    { s with pending := rest }) = _
  rw [if_neg (by simp [hr]), h]
  rfl

theorem writesCell_of {s t : State} {sp : Space} {a v : Nat} (hr : s.rst = false)
    (h : ∀ rest, memPortWrite sp a v { s with pending := rest } = { t with pending := rest, log := s.log }) :
    s.writesCell sp a v t := by
  intro rest
  rw [step_host (rest := rest) rfl (by simp)]
  change Host.Outcome.next (record _ (if s.rst = true then _ else memPortWrite sp a v { s with pending := rest })) = _
  rw [if_neg (by simp [hr]), h]
  rfl

/-- A write of a memory cell while `rst` is held changes nothing (70_reset_and_hazards.md rule R220). -/
theorem writesCell_held {s : State} (hr : s.rst = true) (sp : Space) (a v : Nat) : s.writesCell sp a v s := by
  intro rest
  rw [step_host (rest := rest) rfl (by simp)]
  change Host.Outcome.next (record _ (if s.rst = true then { s with pending := rest } else _)) = _
  rw [if_pos hr]
  rfl

theorem readsCell_of {s : State} {sp : Space} {a v : Nat}
    (h : ∀ rest, memPortRead sp a { s with pending := rest } = v) : s.readsCell sp a v := by
  intro rest
  rw [step_host (rest := rest) rfl (by simp)]
  change Host.Outcome.next (record ⟨_, _, _, memPortRead sp a { s with pending := rest }⟩ { s with pending := rest }) = _
  rw [h]
  rfl

/-- The register of an offset depends on its bits [7:2] only (rule R23). -/
theorem ofOffset_of_and {off n : BitVec 8} (h : off &&& 0xFC#8 = n) : Reg.ofOffset off = Reg.ofOffset n := by
  subst h
  simp only [Reg.ofOffset]
  rw [show off &&& 0xFC#8 &&& 0xFC#8 = off &&& 0xFC#8 by rw [BitVec.and_assoc, BitVec.and_self]]

theorem portRead_of {off : BitVec 8} {r : Reg} (h : Reg.ofOffset off = some r) (s : State) :
    portRead off s = readReg s r := by simp [portRead, h]

theorem portWrite_of {off : BitVec 8} {r : Reg} (h : Reg.ofOffset off = some r) (v : Word) (s : State) :
    portWrite off v s = writeReg r v s := by simp [portWrite, h]

theorem writeReg_of_idle {s : State} (h : s.busy = false) (r : Reg) (v : Word) : writeReg r v s = storeReg v s r := by
  simp [writeReg, h]

theorem writeReg_of_not_guarded {r : Reg} (h : r.guarded = false) (v : Word) (s : State) :
    writeReg r v s = storeReg v s r := by simp [writeReg, h]

theorem writeReg_of_guarded {s : State} {r : Reg} (hb : s.busy = true) (hg : r.guarded = true) (v : Word) :
    writeReg r v s = setWerr s := by simp [writeReg, hb, hg]

theorem memPortRead_of_busy {s : State} (hb : s.busy = true) (sp : Space) (a : Nat) : memPortRead sp a s = 0 := by
  simp [memPortRead, hb]

theorem memPortRead_of_idle {s : State} {sp : Space} {a : Nat} (hb : s.busy = false) (h : a < s.cfg.size sp) :
    memPortRead sp a s = cellNat sp a s := by
  unfold memPortRead
  rw [if_neg (by simp [hb]), if_neg (Nat.not_le.mpr h)]

theorem memPortWrite_of_busy {s : State} (hb : s.busy = true) (sp : Space) (a v : Nat) :
    memPortWrite sp a v s = setWerr s := by
  simp [memPortWrite, hb]

theorem memPortWrite_of_idle {s : State} {sp : Space} {a : Nat} (hb : s.busy = false) (h : a < s.cfg.size sp) (v : Nat) :
    memPortWrite sp a v s = storeCell sp a v s := by
  unfold memPortWrite
  rw [if_neg (by simp [hb]), if_neg (Nat.not_le.mpr h)]

@[simp] theorem busy_withPending (s : State) (rest : List Input) : State.busy { s with pending := rest } = s.busy := rfl

end Sys2Proof.Machine
end

