-- ==== Sys2Proof/Laws/Ports.lean ====
section
/-! SUPPORT. The register port register by register, the halves of the counts and the STATUS word as numbers, and what a
host transaction, a completion and a reset can and cannot change. -/

namespace Sys2Proof.Machine

/-! Words and halves as numbers. -/

theorem loHalf_toNat (c : Count) : (loHalf c).toNat = c.toNat % 2 ^ 32 := by simp [loHalf]

theorem hiHalf_toNat (c : Count) : (hiHalf c).toNat = c.toNat / 2 ^ 32 := by
  have := c.isLt
  simp only [hiHalf, BitVec.extractLsb'_toNat, Nat.shiftRight_eq_div_pow]
  omega

theorem withLo_toNat (c : Count) (v : Word) : (withLo c v).toNat = c.toNat / 2 ^ 32 * 2 ^ 32 + v.toNat := by
  have h1 := hiHalf_toNat c
  have := v.isLt
  simp only [withLo, BitVec.toNat_append, h1]
  rw [← Nat.shiftLeft_add_eq_or_of_lt this, Nat.shiftLeft_eq]

theorem withHi_toNat (c : Count) (v : Word) : (withHi c v).toNat = v.toNat * 2 ^ 32 + c.toNat % 2 ^ 32 := by
  have h1 := loHalf_toNat c
  simp only [withHi, BitVec.toNat_append, h1]
  rw [← Nat.shiftLeft_add_eq_or_of_lt (Nat.mod_lt _ (by omega)), Nat.shiftLeft_eq]

/-- The STATUS word as a sum of its fields (10_state.md rules R26 to R30). -/
theorem statusWord_toNat (s : State) :
    (statusWord s).toNat = s.busy.toNat + 2 * s.done.toNat + 16 * s.err.code.toNat + 256 * s.werr.toNat := by
  unfold statusWord
  generalize s.busy = a
  generalize s.done = b
  generalize s.err = c
  generalize s.werr = d
  cases a <;> cases b <;> cases c <;> cases d <;> rfl

theorem truncDim_toNat (c : Config) (v : Word) : (truncDim c v).toNat = v.toNat % 2 ^ c.dimW := by
  simp only [truncDim]
  rw [toNat_word]
  exact Nat.lt_of_le_of_lt (Nat.mod_le _ _) v.isLt

/-! The register map. -/

/-- No register is at an offset of 0x48 or more (10_state.md rule R23). -/
theorem ofOffset_none {off : BitVec 8} (h : 0x48 ≤ (off &&& 0xFC#8).toNat) : Reg.ofOffset off = none := by
  revert h; revert off; decide

/-- Every register is found at its offset and at no other. -/
theorem offset_of_ofOffset {off : BitVec 8} {r : Reg} (h : Reg.ofOffset off = some r) : off &&& 0xFC#8 = r.offset := by
  revert off r; decide

/-- A write where no register is changes nothing. -/
theorem writes_none {s : State} {off : BitVec 8} {v : Word} (hr : s.rst = false) (h : Reg.ofOffset off = none) :
    s.writes off v s := by
  refine writes_of hr fun rest => ?_
  simp [portWrite, h]

/-- A write that nothing guards stores what `storeReg` says. -/
theorem writes_store {s t : State} {off : BitVec 8} {v : Word} {r : Reg} (hr : s.rst = false)
    (hb : s.busy = false ∨ r.guarded = false) (ho : Reg.ofOffset off = some r)
    (ht : ∀ rest, storeReg v { s with pending := rest } r = { t with pending := rest, log := s.log }) :
    s.writes off v t := by
  refine writes_of hr fun rest => ?_
  rw [portWrite_of ho]
  rcases hb with hb | hb
  · rw [writeReg_of_idle (by simpa using hb), ht]
  · rw [writeReg_of_not_guarded hb, ht]

/-- A register write touches STATUS and ENG only where the register is CMD or STATUS. -/
theorem storeReg_cases (r : Reg) (v : Word) (s : State) :
    (r = .cmd ∧ storeReg v s r = accept v s) ∨ (r = .status ∧ storeReg v s r = writeStatus v s) ∨
    (r ≠ .cmd ∧ r ≠ .status ∧ (storeReg v s r).done = s.done ∧ (storeReg v s r).werr = s.werr ∧
      (storeReg v s r).eng = s.eng ∧ (storeReg v s r).err = s.err) := by
  cases r <;> simp [storeReg]

/-! Turns. -/

theorem host_next {s t : State} {i : Input} {rest : List Input} (hp : s.pending = i :: rest) (hi : i ≠ .engine)
    (h : step s = .next t) : t = hostTurn i (dropInput s) := by
  rw [step_host hp hi] at h
  cases h
  rfl

/-- A completion step ends in a completion. -/
theorem step_aboutToComplete {s t : State} {w : Word} (h : s.aboutToComplete w) (hs : step s = .next t) :
    ∃ r, t = complete r (dropInput s) := by
  obtain ⟨hr, he, hp⟩ := h
  rw [step_engine hp] at hs
  rcases engineTurn_cases hs with ⟨h, -⟩ | ⟨w, i, -, -, -, rfl⟩ | ⟨w, e, -, -, -, rfl⟩
  · simp [hr, he] at h
  · exact ⟨_, rfl⟩
  · exact ⟨.error .illegalOp, rfl⟩

/-- While a command runs, an input other than the assertion of `rst` changes at most DONE, INTEN, WERR, the level of
`rst` and the log. -/
theorem hostTurn_busy {i : Input} {s : State} (hi : i ≠ .rstOn) (hb : s.busy = true) :
    (∃ d e w r l, hostTurn i s = { s with done := d, doneIe := e, werr := w, rst := r, log := l }) ∧
    (s.done = false → (hostTurn i s).done = false) ∧ (s.rst = false → (hostTurn i s).rst = false) := by
  cases i with
  | wr off v =>
    simp only [hostTurn]
    split
    · exact ⟨⟨_, _, _, _, _, rfl⟩, id, id⟩
    · rcases portWrite_cases off v s with ⟨_, h⟩ | ⟨r, _, _, _, h⟩ | ⟨r, _, hg, h⟩
      · rw [h]; exact ⟨⟨_, _, _, _, _, rfl⟩, id, id⟩
      · rw [h]; exact ⟨⟨_, _, true, _, _, rfl⟩, id, id⟩
      · rw [h]
        have hg : r.guarded = false := hg.resolve_left (by rw [hb]; simp)
        cases r <;> try (cases hg)
        all_goals exact ⟨⟨_, _, _, _, _, rfl⟩, fun h => by simp [storeReg, h], id⟩
  | rd off => exact ⟨⟨_, _, _, _, _, rfl⟩, id, id⟩
  | wrm sp a v =>
    simp only [hostTurn]
    split
    · exact ⟨⟨_, _, _, _, _, rfl⟩, id, id⟩
    · rw [memPortWrite_of_busy hb]; exact ⟨⟨_, _, true, _, _, rfl⟩, id, id⟩
  | rdm sp a => exact ⟨⟨_, _, _, _, _, rfl⟩, id, id⟩
  | rstOn => exact absurd rfl hi
  | rstOff => exact ⟨⟨_, _, _, false, _, rfl⟩, id, fun _ => rfl⟩
  | engine => exact ⟨⟨_, _, _, _, _, rfl⟩, id, id⟩

/-! Reset. -/

/-- What a reset does to memory touches the memories and the number of draws only. -/
theorem resetMemory_frame (s : State) :
    ∃ a b c d, resetMemory s = { s with pix := a, pay := b, bit := c, draws := d } := by
  unfold resetMemory
  split
  · exact ⟨s.pix, s.pay, s.bit, s.draws, rfl⟩
  · exact ⟨_, _, _, _, rfl⟩

theorem resetMemory_idle {s : State} (h : s.eng = .idle) : resetMemory s = s := by simp [resetMemory, h]

theorem resetMemory_busy {s : State} {w : Word} (h : s.eng = .busy w) : resetMemory s = abandon w s := by
  simp [resetMemory, h]

/-- A cell outside the write set is not redrawn. -/
theorem find_redrawn_none {α : Type} {cs : List (Nat × α)} {f : Nat → α} {a : Nat} (h : ∀ c ∈ cs, c.1 ≠ a) :
    Memory.find (cs.map fun c => (c.1, f c.1)) a = none := by
  apply Memory.find_none_of_forall_ne
  intro c hc
  rw [List.mem_map] at hc
  obtain ⟨c', hc', rfl⟩ := hc
  exact h c' hc'

/-- In a block whose registers hold their reset values, every register but ID and CHANNELS reads 0 (rule R44). -/
theorem readReg_reset {s : State} (h : resetRegisters s = s) (r : Reg) (h1 : r ≠ .id) (h2 : r ≠ .channels) :
    readReg s r = 0 := by
  rw [← h]
  cases r with
  | status =>
    show (0#23 ++ BitVec.ofBool false ++ ErrCode.ok.code ++ 0#2 ++ BitVec.ofBool false ++ BitVec.ofBool false : Word) = 0
    decide
  | lenHi | bitcntHi | outcntHi =>
    show hiHalf 0 = 0
    decide
  | lenLo | bitcntLo | outcntLo =>
    show loHalf 0 = 0
    decide
  | capLo =>
    show loHalf (BitVec.ofNat 64 (0 * 0 * 3)) = 0
    decide
  | capHi =>
    show hiHalf (BitVec.ofNat 64 (0 * 0 * 3)) = 0
    decide
  | id => exact absurd rfl h1
  | channels => exact absurd rfl h2
  | cmd | inten | width | height | lsbIn | lsbOut | hdr => rfl

end Sys2Proof.Machine
end

