-- ==== Sys2Proof/Laws/Reading.lean ====
section
/-! SUPPORT. What one memory cell reads as after a completion, and the framed bitstream and the header in the words the
statements use. -/

namespace Sys2Proof.Machine

theorem pixAt_completeOk (h : Held) (s : State) (a : Nat) :
    (completeOk h s).pixAt a = (Memory.find h.pix a).getD (s.pixAt a) := by
  simp only [State.pixAt, completeOk_pix, Memory.find_writeAll]
  cases Memory.find h.pix a <;> simp

theorem payAt_completeOk (h : Held) (s : State) (a : Nat) :
    (completeOk h s).payAt a = (Memory.find h.pay a).getD (s.payAt a) := by
  simp only [State.payAt, completeOk_pay, Memory.find_writeAll]
  cases Memory.find h.pay a <;> simp

theorem bitAt_completeOk (h : Held) (s : State) (a : Nat) :
    (completeOk h s).bitAt a = (Memory.find h.bit a).getD (s.bitAt a) := by
  simp only [State.bitAt, completeOk_bit, Memory.find_writeAll]
  cases Memory.find h.bit a <;> simp

/-- A completion that writes BIT, OUTCNT and HDR at most. -/
theorem completeOk_bits {h : Held} (s : State) (h1 : h.pix = []) (h2 : h.pay = []) (h3 : h.lsbOut = none) :
    completeOk h s = { s.completed with
      bit := (completeOk h s).bit, outcnt := (completeOk h s).outcnt, hdr := (completeOk h s).hdr } := by
  cases h
  simp only at h1 h2 h3
  subst h1 h2 h3
  rfl

/-- A completion that writes PAY, OUTCNT and HDR at most. -/
theorem completeOk_payload {h : Held} (s : State) (h1 : h.pix = []) (h2 : h.bit = []) (h3 : h.lsbOut = none) :
    completeOk h s = { s.completed with
      pay := (completeOk h s).pay, outcnt := (completeOk h s).outcnt, hdr := (completeOk h s).hdr } := by
  cases h
  simp only at h1 h2 h3
  subst h1 h2 h3
  rfl

/-- A completion that writes PIX, OUTCNT and HDR at most. -/
theorem completeOk_pixels {h : Held} (s : State) (h1 : h.pay = []) (h2 : h.bit = []) (h3 : h.lsbOut = none) :
    completeOk h s = { s.completed with
      pix := (completeOk h s).pix, outcnt := (completeOk h s).outcnt, hdr := (completeOk h s).hdr } := by
  cases h
  simp only at h1 h2 h3
  subst h1 h2 h3
  rfl

/-- A meaning whose plan raises no error. -/
theorem exec_of_ok {i : Instr} {s : State} {h : Held} (hp : plan i s = .ok h) : exec i s = .next (completeOk h s) := by
  rw [exec_eq, hp]
  rfl

/-- A meaning whose plan raises an error. -/
theorem exec_of_error {i : Instr} {s : State} {e : ErrCode} (hp : plan i s = .error e) :
    exec i s = .next (s.failed e) := by
  rw [exec_eq, hp]
  rfl

/-- A completion is one of the two. -/
theorem exec_cases {i : Instr} {s t : State} (h : exec i s = .next t) :
    (∃ hd, plan i s = .ok hd ∧ t = completeOk hd s) ∨ (∃ e, plan i s = .error e ∧ t = s.failed e) := by
  rw [exec_eq] at h
  cases h
  cases hp : plan i s with
  | ok hd => exact .inl ⟨hd, rfl, rfl⟩
  | error e => exact .inr ⟨e, rfl, rfl⟩

/-- A completion whose code is that of success performed its held writes. -/
theorem exec_ok_cases {i : Instr} {s t : State} (h : exec i s = .next t) (he : t.err = .ok) :
    ∃ hd, plan i s = .ok hd ∧ t = completeOk hd s := by
  rcases exec_cases h with h | ⟨e, hp, rfl⟩
  · exact h
  · exact absurd (show plan i s = .error .ok from hp.trans (congrArg _ he)) (plan_ne_error_ok i s)

/-- A consecutive write from address 0, read one cell at a time. -/
theorem find_cellsFrom_zero {α : Type} (vs : List α) (a : Nat) : Memory.find (cellsFrom 0 vs) a = vs[a]? := by
  simp [find_cellsFrom]

/-- Bit `8 * i + j` of the serialised payload (40_codec.md rule R113). -/
theorem getElem?_payloadBits {f : Nat → Byte} {n k : Nat} (h : k < 8 * n) :
    (bytesToBits (memRead f n))[k]? = some ((f (k / 8)).getLsbD (7 - k % 8)) := by
  rw [getElem?_bytesToBits', List.getElem?_eq_getElem (by rw [length_memRead]; omega), getElem_memRead]
  rfl

/-- The framed bitstream, bit by bit (41_framer.md rule R132). -/
theorem getElem?_framed {s : State} {k : Nat} (h : k < 32 + 8 * s.lenNat) :
    (bytesToBits (be32 s.lenNat ++ memRead s.payAt s.lenNat))[k]? = some (s.framedBit k) := by
  rw [bytesToBits_append]
  by_cases hk : k < 32
  · rw [List.getElem?_append_left (by simpa using hk), getElem?_header _ _ hk]
    simp [State.framedBit, hk]
  · rw [List.getElem?_append_right (by simp; omega)]
    simp only [length_bytesToBits, length_be32, Nat.reduceMul]
    rw [getElem?_payloadBits (by omega)]
    simp [State.framedBit, hk]

/-- The header a sequence states is its header's value. -/
theorem hdrValue_of_isHeader {s : Bits} {n : Nat} (h : IsHeader (fun j => s.getD j false) n) : hdrValue s = n := by
  rw [← hdrValue_header n [] h.1]
  apply hdrValue_congr
  intro j hj
  refine (h.2 j hj).symm.trans ?_
  rw [List.append_nil]
  simp [List.getD, getElem?_header n j hj]

/-- Bit `7 - j` of payload byte `i` is bit `32 + 8 * i + j` of the framed sequence (rule R131). -/
theorem getElem?_payload {s : Bits} {n i : Nat} (h : 32 + 8 * n ≤ s.length) (hi : i < n) :
    ∃ b, (packBytes ((s.drop 32).take (8 * n)))[i]? = some b ∧
      ∀ j < 8, s[32 + 8 * i + j]? = some (b.getLsbD (7 - j)) := by
  have hl : ((s.drop 32).take (8 * n)).length = 8 * n := by rw [List.length_take, List.length_drop]; omega
  have hlen := length_payload h
  refine ⟨_, List.getElem?_eq_getElem (by rw [hlen]; exact hi), fun j hj => ?_⟩
  have := getLsbD_packBytes ((s.drop 32).take (8 * n)) (by rw [hl]; omega) i j hj
  rw [List.getElem?_take_of_lt (by omega), List.getElem?_drop,
    List.getElem?_eq_getElem (l := packBytes _) (by rw [hlen]; exact hi)] at this
  rw [show 32 + 8 * i + j = 32 + (8 * i + j) by omega]
  exact this

theorem hdrValue_memRead {s : State} {n m : Nat} (h : IsHeader s.bitAt n) (hm : 32 ≤ m) :
    hdrValue (memRead s.bitAt m) = n := by
  apply hdrValue_of_isHeader
  refine ⟨h.1, fun j hj => (h.2 j hj).trans ?_⟩
  simp only [List.getD]
  rw [List.getElem?_eq_getElem (by rw [length_memRead]; omega), getElem_memRead]
  rfl

theorem hdrValue_collect {s : State} {n : Nat} (h : IsHeader s.slotLsb n) (hm : 32 ≤ capacity s) :
    hdrValue (collect s) = n := by
  apply hdrValue_of_isHeader
  refine ⟨h.1, fun j hj => (h.2 j hj).trans ?_⟩
  simp only [List.getD]
  rw [getElem?_collect _ (by omega)]
  rfl

/-- The header a grid states depends on the LSBs of its first 32 slots only (43_extractor.md rule R174). -/
theorem hdrValue_collect_congr {s s' : State} (hc : capacity s' = capacity s) (hm : 32 ≤ capacity s)
    (h : ∀ k < 32, s'.slotLsb k = s.slotLsb k) : hdrValue (collect s') = hdrValue (collect s) := by
  apply hdrValue_congr
  intro j hj
  simp only [List.getD]
  rw [getElem?_collect _ (by omega), getElem?_collect _ (by omega)]
  exact h j hj

/-- PAY after a payload of `n` bytes was decoded from framed bits (rules R134 and R171). -/
theorem payAt_of_payload {s : State} {bits : Bits} {n : Nat} (hl : 32 + 8 * n ≤ bits.length) {f : Nat → Bool}
    (hf : ∀ k < 32 + 8 * n, bits[k]? = some (f k)) {h : Held}
    (hh : h.pay = cellsFrom 0 (packBytes ((bits.drop 32).take (8 * n)))) :
    (∀ i < n, ∀ j < 8, ((completeOk h s).payAt i).getLsbD (7 - j) = f (32 + 8 * i + j)) ∧
    ∀ a, n ≤ a → (completeOk h s).payAt a = s.payAt a := by
  constructor
  · intro i hi j hj
    obtain ⟨b, hb, hbits⟩ := getElem?_payload hl hi
    rw [payAt_completeOk, hh, find_cellsFrom_zero, hb]
    have := hbits j hj
    rw [hf _ (by omega)] at this
    exact (Option.some.inj this).symm
  · intro a ha
    rw [payAt_completeOk, hh, find_cellsFrom_zero, List.getElem?_eq_none (by rw [length_payload hl]; exact ha)]
    rfl

/-- PIX after the distributor's cells are written (rules R152 and R154). -/
theorem pixAt_of_distribute {s : State} (hc : 3 ≤ s.chan) {bits : Bits} {h : Held} (hh : h.pix = distribute s 0 bits) :
    (∀ k (hk : k < bits.length),
      (completeOk h s).pixAt (slotAddr s.chan k) = setLsb (s.pixAt (slotAddr s.chan k)) bits[k]) ∧
    (∀ a, (∀ k < bits.length, a ≠ slotAddr s.chan k) → (completeOk h s).pixAt a = s.pixAt a) := by
  constructor
  · intro k hk
    have := find_distribute hc (k := 0) hk
    rw [Nat.zero_add] at this
    rw [pixAt_completeOk, hh, this]
    rfl
  · intro a ha
    rw [pixAt_completeOk, hh, find_distribute_none (by simpa using ha)]
    rfl

/-- PIX after an EMBED whose checks passed (rule R154). -/
theorem pixAt_of_framed {s : State} (hc : 3 ≤ s.chan) {h : Held}
    (hh : h.pix = distribute s 0 (bytesToBits (be32 s.lenNat ++ memRead s.payAt s.lenNat))) :
    (∀ k < 32 + 8 * s.lenNat,
      (completeOk h s).pixAt (slotAddr s.chan k) = setLsb (s.pixAt (slotAddr s.chan k)) (s.framedBit k)) ∧
    (∀ a, (∀ k < 32 + 8 * s.lenNat, a ≠ slotAddr s.chan k) → (completeOk h s).pixAt a = s.pixAt a) := by
  obtain ⟨h1, h2⟩ := pixAt_of_distribute hc hh
  rw [length_framedBits] at h2
  refine ⟨fun k hk => ?_, h2⟩
  have hk' : k < (bytesToBits (be32 s.lenNat ++ memRead s.payAt s.lenNat)).length := by rwa [length_framedBits]
  have hb := getElem?_framed hk
  rw [List.getElem?_eq_getElem hk'] at hb
  rw [h1 k hk', Option.some.inj hb]

theorem pixAt_setLsb_bit {s t : State} {a : Nat} {b : Bool} (h : t.pixAt a = setLsb (s.pixAt a) b) :
    (t.pixAt a).getLsbD 0 = b ∧ ∀ i, 1 ≤ i → i < 8 → (t.pixAt a).getLsbD i = (s.pixAt a).getLsbD i := by
  rw [h]
  refine ⟨getLsbD_zero_setLsb _ _, fun i h1 h8 => ?_⟩
  rw [getLsbD_setLsb _ _ _ h8, if_neg (by omega)]

end Sys2Proof.Machine
end

