-- ==== Sys2Proof/Tests/Slice0.lean ====
section
/-! SUPPORT. Tests of the model. Every expected result is the spec's: the rows V-… of 95_test_vectors.md, or a value worked
out by hand from the rule named. After them, the witnesses: states that meet the hypotheses of the statements. -/

namespace Sys2Proof.Tests

open Sys2Proof Sys2Proof.Machine

set_option Elab.async false

/-! ## Helpers -/

/-- The state a turn leaves, for a turn that answers a next state. -/
def after (o : Host.Outcome State Fault Refusal) : Option State :=
  match o with
  | .next s => some s
  | _ => none

/-- One field of the state a command leaves. -/
def result {α : Type} (i : Instr) (s : State) (f : State → α) : Option α := (after (exec i s)).map f

/-- A reset block in the reference configuration with LEN and the first bytes of PAY loaded. -/
def withPay (len : Nat) (bytes : Bytes) : State :=
  { State.reset with len := BitVec.ofNat 64 len, pay := cellsFrom 0 bytes }

/-- A reset block with BITCNT and the first bits of BIT loaded. -/
def withBits (m : Nat) (bits : Bits) : State :=
  { State.reset with bitcnt := BitVec.ofNat 64 m, bit := cellsFrom 0 bits }

/-- A state with its grid set and the first bytes of PIX loaded. -/
def withGrid (w h : Word) (ch : BitVec 3) (pix : Bytes) (s : State) : State :=
  { s with width := w, height := h, channels := ch, pix := cellsFrom 0 pix }

/-- A state in which the engine holds a word, with inputs to come. -/
def running (w : Word) (inputs : List Input) (s : State) : State := { s with eng := .busy w, pending := inputs }

/-- A state with inputs to come. -/
def waiting (inputs : List Input) (s : State) : State := { s with pending := inputs }

/-- The bits that are 1 among the first `n` of BIT, by address. -/
def onesOfBit (n : Nat) (s : State) : List Nat := (List.range n).filter s.bitAt

/-- The addresses below `n` whose PIX cell is not `v`. -/
def pixOtherThan (v : Byte) (n : Nat) (s : State) : List Nat := (List.range n).filter fun a => s.pixAt a != v

/-- The framed bitstream of the one byte 0x41, written out (V-F-1). -/
def framedA : Bits := List.replicate 31 false ++ [true] ++ [false, true, false, false, false, false, false, true]

/-! ## Decoding: each opcode's word written out bit by bit, RSVD [31:4] and OP [3:0] (rules R90 and R91) -/

theorem test_decode_bytes2bits : decode 0b0000000000000000000000000000_0001#32 = .ok .bytes2bits := by decide

theorem test_decode_bits2bytes : decode 0b0000000000000000000000000000_0010#32 = .ok .bits2bytes := by decide

theorem test_decode_setlsb : decode 0b0000000000000000000000000000_0011#32 = .ok .setlsb := by decide

theorem test_decode_frame : decode 0b0000000000000000000000000000_0100#32 = .ok .frame := by decide

theorem test_decode_unframe : decode 0b0000000000000000000000000000_0101#32 = .ok .unframe := by decide

theorem test_decode_embed : decode 0b0000000000000000000000000000_0110#32 = .ok .embed := by decide

theorem test_decode_extract : decode 0b0000000000000000000000000000_0111#32 = .ok .extract := by decide

/-- Each reason for an illegal word (rule R92; V-W-1, V-W-2, V-W-5). -/
theorem test_decode_illegal :
    decode 0x00000000#32 = .error .opZero ∧ decode 0x00000008#32 = .error .opReserved ∧
      decode 0x80000006#32 = .error .rsvdNonzero := by decide

/-- The table's numbering: 32 bits a command; a number with a bit above bit 31 is none. -/
theorem test_decodeTableWord :
    decodeTableWord 32 6 = some .embed ∧ decodeTableWord 32 22 = none ∧ decodeTableWord 40 (2 ^ 32 + 6) = none := by
  decide

/-! ## WellFormed: a configuration out of each range is refused (rules R10 and R11) -/

theorem test_wf_reference : Config.reference.wf = true := by decide

theorem test_wf_ends : Config.wf ⟨1, 1, 1, 1⟩ = true ∧ Config.wf ⟨31, 2 ^ 34, 2 ^ 32 - 1, 2 ^ 36⟩ = true := by decide

theorem test_illformed_dimW_low : Config.wf ⟨0, 4096, 256, 4096⟩ = false := by decide

theorem test_illformed_dimW_high : Config.wf ⟨32, 4096, 256, 4096⟩ = false := by decide

theorem test_illformed_pixSize_low : Config.wf ⟨16, 0, 256, 4096⟩ = false := by decide

theorem test_illformed_pixSize_high : Config.wf ⟨16, 2 ^ 34 + 1, 256, 4096⟩ = false := by decide

theorem test_illformed_paySize_low : Config.wf ⟨16, 4096, 0, 4096⟩ = false := by decide

theorem test_illformed_paySize_high : Config.wf ⟨16, 4096, 2 ^ 32, 4096⟩ = false := by decide

theorem test_illformed_bitSize_low : Config.wf ⟨16, 4096, 256, 0⟩ = false := by decide

theorem test_illformed_bitSize_high : Config.wf ⟨16, 4096, 256, 2 ^ 36 + 1⟩ = false := by decide

/-! ## The commands, at most two tests each -/

/-- V-C-1: 0x41 serialises to 01000001, OUTCNT is 8, STATUS reads 0x02. -/
theorem test_bytes2bits :
    result .bytes2bits (withPay 1 [0x41]) (fun t => (onesOfBit 8 t, t.outcnt, statusWord t)) =
      some ([1, 7], 8, 0x02) := by decide +kernel

/-- V-C-6: LEN of 2^32 gives BOUNDS, never TOO_LARGE. -/
theorem test_bytes2bits_bounds : result .bytes2bits (withPay (2 ^ 32) []) statusWord = some 0x62 := by decide +kernel

/-- V-C-7: 1000000000000001 packs to 0x80, 0x01. -/
theorem test_bits2bytes :
    result .bits2bytes (withBits 16 ([true] ++ List.replicate 14 false ++ [true]))
      (fun t => (t.payAt 0, t.payAt 1, t.outcnt)) = some (0x80, 0x01, 2) := by decide +kernel

/-- V-C-10: 4097 bits give BOUNDS, which wins over FRAMING; V-C-9: 7 bits give FRAMING. -/
theorem test_bits2bytes_checks :
    result .bits2bytes (withBits 4097 []) statusWord = some 0x62 ∧
      result .bits2bytes (withBits 7 []) statusWord = some 0x12 := by decide +kernel

/-- V-C-13: VALUE 0xFE with BIT 1 gives 0xFF. -/
theorem test_setlsb :
    result .setlsb { State.reset with lsbIn := 0x1FE } (fun t => (t.lsbOut, statusWord t)) = some (0xFF, 0x02) := by
  decide +kernel

/-- V-C-16: VALUE 0x7F with BIT 0 gives 0x7E; V-C-18: OUTCNT and HDR are as before. -/
theorem test_setlsb_clears :
    result .setlsb { State.reset with lsbIn := 0x07F, outcnt := 9, hdr := 3 } (fun t => (t.lsbOut, t.outcnt, t.hdr)) =
      some (0x7E, 9, 3) := by decide +kernel

/-- V-F-1: the framed bitstream of 0x41 has ones at 31, 33 and 39; OUTCNT is 40 and HDR is 1. -/
theorem test_frame :
    result .frame (withPay 1 [0x41]) (fun t => (onesOfBit 40 t, t.outcnt, t.hdr)) = some ([31, 33, 39], 40, 1) := by
  decide +kernel

/-- V-F-6: LEN of 2^32 gives TOO_LARGE; V-F-7: LEN of 2^32 - 1 gives BOUNDS. -/
theorem test_frame_checks :
    result .frame (withPay (2 ^ 32) []) statusWord = some 0x42 ∧
      result .frame (withPay (2 ^ 32 - 1) []) statusWord = some 0x62 := by decide +kernel

/-- V-F-8: the framed bitstream of 0x41 gives it back. -/
theorem test_unframe :
    result .unframe (withBits 40 framedA) (fun t => (t.payAt 0, t.outcnt, t.hdr)) = some (0x41, 1, 1) := by
  decide +kernel

/-- V-F-11: 39 bits of it give CORRUPT; V-F-9: so do 31 bits. -/
theorem test_unframe_checks :
    result .unframe (withBits 39 framedA) statusWord = some 0x32 ∧
      result .unframe (withBits 31 framedA) statusWord = some 0x32 := by decide +kernel

/-- V-E-4: in a 14×1 RGBA grid of zeros, EMBED of 0x41 sets the LSB of cells 41, 44 and 52 and nothing else. -/
theorem test_embed :
    result .embed (withGrid 14 1 4 (List.replicate 56 0) (withPay 1 [0x41]))
      (fun t => (pixOtherThan 0 56 t, t.pixAt 52, t.outcnt)) = some ([41, 44, 52], 0x01, 40) := by decide +kernel

/-- V-E-7: one bit over the capacity gives CAPACITY; V-E-17: GEOMETRY is checked before TOO_LARGE. -/
theorem test_embed_checks :
    result .embed (withGrid 13 1 3 [] (withPay 1 [])) statusWord = some 0x22 ∧
      result .embed (withGrid 14 1 5 [] (withPay (2 ^ 32) [])) statusWord = some 0x72 := by decide +kernel

/-- V-X-2: the grid V-E-4 leaves gives 0x41 back. -/
theorem test_extract :
    result .extract
      (withGrid 14 1 4 ((List.range 56).map fun a => if a = 41 ∨ a = 44 ∨ a = 52 then 1 else 0) State.reset)
      (fun t => (t.payAt 0, t.outcnt, t.hdr)) = some (0x41, 1, 1) := by decide +kernel

/-- V-X-5: a grid of 30 slots gives CORRUPT; V-X-10: seven channels give GEOMETRY. -/
theorem test_extract_checks :
    result .extract (withGrid 10 1 3 [] State.reset) statusWord = some 0x32 ∧
      result .extract (withGrid 14 1 7 [] State.reset) statusWord = some 0x72 := by decide +kernel

/-! ## The ports and the engine -/

/-- V-W-4: an illegal word completes with STATUS 0x52, and OUTCNT is as before. -/
theorem test_illegal_word :
    (after (step (running 0x11 [] { State.reset with outcnt := 5 }))).map (fun t => (statusWord t, t.outcnt)) =
      some (0x52, 5) := by decide +kernel

/-- V-W-7: WIDTH stays 14 while a command runs, and STATUS reads 0x101. -/
theorem test_guarded_write :
    (after (step (running 6 [.wr 0x10 5] { State.reset with width := 14 }))).map (fun t => (t.width, statusWord t)) =
      some (14, 0x101) := by decide +kernel

/-- V-W-13: a write of 0xFFFFFFFF turns STATUS 0x122 into 0x020. -/
theorem test_status_write :
    (after (step (waiting [.wr 0x08 0xFFFFFFFF]
      { State.reset with done := true, err := .capacity, werr := true }))).map statusWord = some 0x020 := by decide +kernel

/-- V-W-22: CAP of a grid of 0xFFFF × 0xFFFF; V-W-24: offset 0x0B reads STATUS. -/
theorem test_register_reads :
    portRead 0x40 { State.reset with width := 0xFFFF, height := 0xFFFF } = 0xFFFA0003 ∧
      portRead 0x44 { State.reset with width := 0xFFFF, height := 0xFFFF } = 2 ∧
      portRead 0x0B { State.reset with done := true } = 0x02 := by decide +kernel

/-- V-W-26: PAY[256] reads 0, and a write of it is ignored with no flag set. -/
theorem test_memory_port_end :
    (after (step (waiting [.rdm .pay 256] State.reset))).map State.log = some [⟨.mem .pay, .r, 256, 0⟩] ∧
      (after (step (waiting [.wrm .pay 256 1] State.reset))).map (fun t => (t.pay, t.werr)) = some ([], false) := by
  decide +kernel

/-- Rules R61, R77 and R220: while `rst` is held, a memory read returns the cell, and 0 at an address outside the space. -/
theorem test_memory_read_under_reset :
    (after (step { withPay 1 [0x41] with rst := true, pending := [.rdm .pay 0] })).map State.log =
        some [⟨.mem .pay, .r, 0, 0x41⟩] ∧
      (after (step { withPay 1 [0x41] with rst := true, pending := [.rdm .pay 256] })).map State.log =
        some [⟨.mem .pay, .r, 256, 0⟩] := by decide +kernel

/-- V-R-2: a reset while the EMBED of V-E-1 runs leaves PIX[40] and PIX[41] as they are. -/
theorem test_reset_while_busy :
    (after (step (running 6 [.rstOn] (withGrid 14 1 3 (List.replicate 42 0x12) (withPay 1 [0x41]))))).map
      (fun t => (t.pixAt 40, t.pixAt 41, t.done, t.outcnt, t.busy)) = some (0x12, 0x12, false, 0, false) := by
  decide +kernel

/-- A command placed by `withFetchWord` runs as the first step after reset: SETLSB of 0 completes. -/
theorem test_withFetchWord :
    (after (step (State.reset.withFetchWord 32 3))).map (fun t => (t.lsbOut, statusWord t)) = some (0, 0x02) := by
  decide +kernel

/-! ## Witnesses: concrete states that meet the hypotheses of each statement

A statement without hypotheses has none here: OpcodeTableWordsDecode, WordsThatDecodeAreExactlyTheOpcodeMap,
EveryStepAnswersANextState, CommandWritesOnlyWhatTheMapNames, SetlsbReplacesBitZero, SetLsbLaws. -/

theorem witness_DecodeInvertsEncode : ∀ i : Instr, i.wf = true := by intro i; cases i <;> rfl

theorem witness_StepRunsTheDecodedCommand :
    (running 6 [] State.reset).aboutToComplete 6 ∧ (running 6 [.engine] State.reset).aboutToComplete 6 ∧
      decode 6 = .ok .embed ∧ decodeTableWord 32 7 = some .extract ∧ (7 : Nat) < 2 ^ 32 :=
  ⟨⟨rfl, rfl, .inl rfl⟩, ⟨rfl, rfl, .inr ⟨[], rfl⟩⟩, by decide, by decide, by decide⟩

theorem witness_CmdWriteWhileIdleIsAccepted :
    State.reset.rst = false ∧ State.reset.busy = false ∧ 0x04#8 &&& 0xFC#8 = 0x04#8 ∧ 0x07#8 &&& 0xFC#8 = 0x04#8 := by
  decide

/-- The words at the ends of the three ranges, and a state in which each is about to complete. -/
theorem witness_IllegalWordCompletesWithIllegalOp :
    (16#32).toNat / 16 ≠ 0 ∧ (32#32).toNat % 16 = 0 ∧ 8 ≤ (8#32).toNat % 16 ∧
      State.reset.rst = false ∧ State.reset.busy = false ∧ (running 16 [] State.reset).aboutToComplete 16 :=
  ⟨by decide, by decide, by decide, rfl, rfl, rfl, rfl, .inl rfl⟩

/-- Every command but SETLSB can fail. -/
theorem witness_FailedCommandChangesStatusOnly :
    result .bytes2bits (withPay 257 []) State.err = some .bounds ∧
      result .bits2bytes (withBits 7 []) State.err = some .framing ∧
      result .frame (withPay 257 []) State.err = some .bounds ∧
      result .unframe (withBits 31 []) State.err = some .corrupt ∧
      result .embed (withGrid 13 1 3 [] (withPay 1 [])) State.err = some .capacity ∧
      result .extract (withGrid 14 1 2 [] State.reset) State.err = some .geometry := by decide +kernel

/-- Each code with each command that raises it. -/
theorem witness_ErrorCodesAreThoseOfTheTable :
    result .setlsb State.reset State.err = some .ok ∧
      result .bits2bytes (withBits 7 []) State.err = some .framing ∧
      result .embed (withGrid 13 1 3 [] (withPay 1 [])) State.err = some .capacity ∧
      result .unframe (withBits 31 []) State.err = some .corrupt ∧
      result .extract (withGrid 10 1 3 [] State.reset) State.err = some .corrupt ∧
      result .frame (withPay (2 ^ 32) []) State.err = some .tooLarge ∧
      result .embed (withGrid 16 1 3 [] (withPay (2 ^ 32) [])) State.err = some .tooLarge ∧
      result .bytes2bits (withPay 257 []) State.err = some .bounds ∧
      result .embed (withGrid 14 1 5 [] State.reset) State.err = some .geometry ∧
      result .extract (withGrid 14 1 7 [] State.reset) State.err = some .geometry := by decide +kernel

/-- LEN at PAY_SIZE, 8 * LEN at BIT_SIZE, and one more of each. -/
theorem witness_Bytes2bitsSerialisesOrBounds :
    State.reset.cfg.wf = true ∧
      ((withPay 256 []).lenNat ≤ (withPay 256 []).cfg.paySize ∧ 8 * (withPay 256 []).lenNat ≤ (withPay 256 []).cfg.bitSize) ∧
      (withPay 257 []).cfg.paySize < (withPay 257 []).lenNat ∧
      { withPay 2 [] with cfg := ⟨16, 4096, 256, 15⟩ }.cfg.wf = true ∧
      { withPay 2 [] with cfg := ⟨16, 4096, 256, 15⟩ }.cfg.bitSize <
        8 * { withPay 2 [] with cfg := ⟨16, 4096, 256, 15⟩ }.lenNat := by decide +kernel

theorem witness_Bits2bytesPacksOrFails :
    State.reset.cfg.wf = true ∧
      ((withBits 2048 []).bitcntNat ≤ (withBits 2048 []).cfg.bitSize ∧ (withBits 2048 []).bitcntNat % 8 = 0 ∧
        (withBits 2048 []).bitcntNat / 8 ≤ (withBits 2048 []).cfg.paySize) ∧
      (withBits 4097 []).cfg.bitSize < (withBits 4097 []).bitcntNat ∧
      ((withBits 4095 []).bitcntNat ≤ (withBits 4095 []).cfg.bitSize ∧ (withBits 4095 []).bitcntNat % 8 ≠ 0) ∧
      ((withBits 2056 []).bitcntNat ≤ (withBits 2056 []).cfg.bitSize ∧ (withBits 2056 []).bitcntNat % 8 = 0 ∧
        (withBits 2056 []).cfg.paySize < (withBits 2056 []).bitcntNat / 8) := by decide +kernel

theorem witness_FrameBuildsBitstreamOrFails :
    State.reset.cfg.wf = true ∧
      ((withPay 256 []).lenNat ≤ 2 ^ 32 - 1 ∧ (withPay 256 []).lenNat ≤ (withPay 256 []).cfg.paySize ∧
        32 + 8 * (withPay 256 []).lenNat ≤ (withPay 256 []).cfg.bitSize) ∧
      2 ^ 32 - 1 < (withPay (2 ^ 32) []).lenNat ∧
      ((withPay (2 ^ 32 - 1) []).lenNat ≤ 2 ^ 32 - 1 ∧
        (withPay (2 ^ 32 - 1) []).cfg.paySize < (withPay (2 ^ 32 - 1) []).lenNat) := by decide +kernel

/-- Headers of 1 and of 257 with the counts at which each clause begins. -/
theorem witness_UnframeDecodesBitstreamOrFails :
    State.reset.cfg.wf = true ∧
      (IsHeader (withBits 40 framedA).bitAt 1 ∧ (withBits 40 framedA).bitcntNat ≤ (withBits 40 framedA).cfg.bitSize ∧
        32 + 8 * 1 ≤ (withBits 40 framedA).bitcntNat ∧ 1 ≤ (withBits 40 framedA).cfg.paySize) ∧
      (32 ≤ (withBits 32 framedA).bitcntNat ∧ (withBits 39 framedA).bitcntNat < 32 + 8 * 1) ∧
      (IsHeader (withBits 2088 (List.replicate 23 false ++ [true] ++ List.replicate 7 false ++ [true])).bitAt 257 ∧
        32 + 8 * 257 ≤ (withBits 2088 []).bitcntNat ∧ (withBits 2088 []).bitcntNat ≤ (withBits 2088 []).cfg.bitSize ∧
        (withBits 2088 []).cfg.paySize < 257) ∧
      (withBits 4097 []).cfg.bitSize < (withBits 4097 []).bitcntNat ∧
      ((withBits 31 []).bitcntNat ≤ (withBits 31 []).cfg.bitSize ∧ (withBits 31 []).bitcntNat < 32) := by
  unfold IsHeader
  decide +kernel

/-- The geometry at its bound (32×32 RGBA) and outside it, and LEN at each clause's bound. -/
theorem witness_EmbedWritesSlotLsbsOrFails :
    State.reset.cfg.wf = true ∧
      (∀ s ∈ [withGrid 32 32 4 [] (withPay 256 []), withGrid 32 32 4 [] (withPay (2 ^ 32) []),
          withGrid 32 32 4 [] (withPay 257 []), withGrid 13 1 3 [] (withPay 1 [])],
        (s.chan = 3 ∨ s.chan = 4) ∧ s.gridW * s.gridH * s.chan ≤ s.cfg.pixSize) ∧
      ((withPay 256 []).lenNat ≤ 2 ^ 32 - 1 ∧ (withPay 256 []).lenNat ≤ (withPay 256 []).cfg.paySize ∧
        32 + 8 * (withPay 256 []).lenNat ≤ 32 * 32 * 3) ∧
      2 ^ 32 - 1 < (withPay (2 ^ 32) []).lenNat ∧
      (withPay 257 []).cfg.paySize < (withPay 257 []).lenNat ∧
      ((withPay 1 []).lenNat ≤ (withPay 1 []).cfg.paySize ∧ 13 * 1 * 3 < 32 + 8 * (withPay 1 []).lenNat) ∧
      ¬((withGrid 64 64 3 [] State.reset).gridW * (withGrid 64 64 3 [] State.reset).gridH *
          (withGrid 64 64 3 [] State.reset).chan ≤ State.reset.cfg.pixSize) ∧
      ¬((withGrid 1 1 5 [] State.reset).chan = 3 ∨ (withGrid 1 1 5 [] State.reset).chan = 4) := by decide +kernel

theorem witness_FourthChannelIsNeverModified :
    (withGrid 14 1 4 [] (withPay 1 [0x41])).chan = 4 ∧
      (after (exec .embed (withGrid 14 1 4 [] (withPay 1 [0x41])))).isSome = true ∧
      (after (exec .setlsb State.reset)).isSome = true := by decide +kernel

/-- A cell that an EMBED changes: the LSB of slot 31, in a grid of zeros (V-E-4). -/
theorem witness_EmbedTouchesOnlyTheFirstPixels :
    result .embed (withGrid 14 1 4 (List.replicate 56 0) (withPay 1 [0x41])) (fun t => t.pixAt (10 * 4 + 1)) =
        some 0x01 ∧
      (withGrid 14 1 4 (List.replicate 56 0) (withPay 1 [0x41])).pixAt (10 * 4 + 1) = 0x00 := by decide +kernel

/-- The two grids of the boundary: 16×1 with two bytes, and 13×1 with one (V-E-5, V-E-7). -/
theorem witness_CapacityBoundary :
    State.reset.cfg.wf = true ∧
      (∀ s ∈ [withGrid 16 1 3 [] (withPay 2 []), withGrid 13 1 3 [] (withPay 1 [])],
        s.chan = 3 ∧ s.gridW * s.gridH * s.chan ≤ s.cfg.pixSize ∧ s.lenNat ≤ s.cfg.paySize) ∧
      32 + 8 * (withPay 2 []).lenNat = 16 * 1 * 3 ∧ 32 + 8 * (withPay 1 []).lenNat = 13 * 1 * 3 + 1 := by decide +kernel

/-- Grids of zeros and of header 1 and 257 (V-X-6, V-X-2, V-X-9), a grid of 31 slots or fewer, and one out of bounds. -/
theorem witness_ExtractDecodesSlotsOrFails :
    State.reset.cfg.wf = true ∧
      IsHeader (withGrid 11 1 3 (List.replicate 33 0) State.reset).slotLsb 0 ∧
      (32 ≤ 11 * 1 * 3 ∧ 32 + 8 * 0 ≤ 11 * 1 * 3) ∧
      IsHeader (withGrid 13 1 3 (List.replicate 31 0 ++ [1]) State.reset).slotLsb 1 ∧
      13 * 1 * 3 < 32 + 8 * 1 ∧
      IsHeader (withGrid 696 1 3 (List.replicate 23 0 ++ [1] ++ List.replicate 7 0 ++ [1]) State.reset).slotLsb 257 ∧
      (32 + 8 * 257 ≤ 696 * 1 * 3 ∧ State.reset.cfg.paySize < 257 ∧ 696 * 1 * 3 ≤ State.reset.cfg.pixSize) ∧
      10 * 1 * 3 < 32 ∧
      ¬(64 * 64 * 3 ≤ State.reset.cfg.pixSize) := by
  unfold IsHeader
  decide +kernel

theorem witness_CodecRoundTrip :
    ([] : Bits).length % 8 = 0 ∧ (List.replicate 16 true).length % 8 = 0 ∧
      (withPay 256 []).lenNat ≤ (withPay 256 []).cfg.paySize ∧
      8 * (withPay 256 []).lenNat ≤ (withPay 256 []).cfg.bitSize ∧
      (2048 : Count).toNat = 8 * (withPay 256 []).lenNat := by decide +kernel

/-- The state FRAME leaves, with BITCNT set to 40 and to BIT_SIZE. -/
theorem witness_FramerRoundTrip :
    ([0x41] : Bytes).length ≤ 2 ^ 32 - 1 ∧
      ∃ t, exec .frame (withPay 1 [0x41]) = .next t ∧ t.err = .ok ∧
        { t with bitcnt := 40 }.cfg = (withPay 1 [0x41]).cfg ∧
        (∀ k < 40, { t with bitcnt := 40 }.bitAt k = t.bitAt k) ∧
        32 + 8 * (withPay 1 [0x41]).lenNat ≤ { t with bitcnt := 40 }.bitcntNat ∧
        { t with bitcnt := 4096 }.bitcntNat ≤ (withPay 1 [0x41]).cfg.bitSize :=
  ⟨by decide, _, rfl, by decide +kernel, rfl, fun _ _ => rfl, by decide +kernel, by decide +kernel⟩

theorem witness_EmbedThenExtractRecoversThePayload :
    ∃ t, exec .embed (withGrid 14 1 3 [] (withPay 1 [0x41])) = .next t ∧ t.err = .ok ∧
      t.cfg = State.reset.cfg ∧ t.width = 14 ∧ t.height = 1 ∧ t.channels = 3 :=
  ⟨_, rfl, by decide +kernel, by decide +kernel, by decide +kernel, by decide +kernel, by decide +kernel⟩

/-- Two states that differ in alpha, in the high bits of a cell, in LEN, BITCNT and BIT, and whose EXTRACT succeeds; two
whose EXTRACT ends in CORRUPT for the header 1, and which differ in a slot from 32 on; and two grids of 30 slots. -/
theorem witness_ExtractSeesOnlyTheSlotsItNeeds :
    (∀ k < 32, k < 11 * 1 * 3 →
        (withGrid 11 1 4 ((List.range 44).map fun a => if a % 4 = 3 then 0xFF else 0xFE) (withBits 5 [true])).slotLsb k =
          (withGrid 11 1 4 (List.replicate 44 0) State.reset).slotLsb k) ∧
      result .extract (withGrid 11 1 4 (List.replicate 44 0) State.reset) State.err = some .ok ∧
      (∀ k < 32, k < 13 * 1 * 3 →
        (withGrid 13 1 3 (List.replicate 31 0 ++ [1, 1]) State.reset).slotLsb k =
          (withGrid 13 1 3 (List.replicate 31 0 ++ [1, 0]) State.reset).slotLsb k) ∧
      result .extract (withGrid 13 1 3 (List.replicate 31 0 ++ [1, 1]) State.reset) State.err = some .corrupt ∧
      (∀ k < 32, k < 10 * 1 * 3 →
        (withGrid 10 1 3 (List.replicate 30 0 ++ [1]) State.reset).slotLsb k =
          (withGrid 10 1 3 (List.replicate 30 0) State.reset).slotLsb k) := by decide +kernel

/-- A payload byte whose eight slots agree in two grids that differ in the other byte's. -/
theorem witness_ExtractSeesOnlyTheSlotsItNeeds_byte :
    result .extract (withGrid 16 1 3 (List.replicate 30 0 ++ [1, 0] ++ List.replicate 16 1) State.reset)
        (fun t => (t.err, t.outcnt)) = some (.ok, 2) ∧
      ∀ k < 40,
        (withGrid 16 1 3 (List.replicate 30 0 ++ [1, 0] ++ List.replicate 16 1) State.reset).slotLsb k =
          (withGrid 16 1 3 (List.replicate 30 0 ++ [1, 0] ++ List.replicate 8 1 ++ List.replicate 8 0)
            State.reset).slotLsb k := by decide +kernel

/-- Two states that differ in what no command reads, for every command. -/
theorem witness_CommandReadsOnlyItsOperands :
    ∀ i : Instr,
      (after (exec i State.reset)).isSome = true ∧
        (after (exec i { State.reset with hdr := 9, outcnt := 5, lsbOut := 1, werr := true })).isSome = true := by
  intro i
  cases i <;> decide +kernel

/-- An offset for every row of the map, its two low bits set, and the first and the last offset without a register. -/
theorem witness_RegisterReadsFollowTheMap :
    State.reset.rst = false ∧
      (∀ n ∈ [0x00, 0x04, 0x08, 0x0C, 0x10, 0x14, 0x18, 0x1C, 0x20, 0x24, 0x28, 0x2C, 0x30, 0x34, 0x38, 0x3C, 0x40, 0x44],
        (BitVec.ofNat 8 (n + 3)) &&& 0xFC#8 = BitVec.ofNat 8 n) ∧
      0x48 ≤ (0x48#8 &&& 0xFC#8).toNat ∧ 0x48 ≤ (0xFF#8 &&& 0xFC#8).toNat := by decide

/-- A running block meets the invariant. -/
theorem witness_inv_running : (running 6 [] State.reset).Inv :=
  ⟨by decide, by decide, by decide, by decide, by decide, by decide, fun _ => ⟨rfl, rfl⟩, fun h => absurd h (by decide)⟩

theorem witness_CapReadsAsWidthTimesHeightTimesThree :
    ∃ s : State, s.Inv ∧ s.rst = false ∧ 0x40#8 &&& 0xFC#8 = 0x40#8 ∧ 0x47#8 &&& 0xFC#8 = 0x44#8 :=
  ⟨_, witness_inv_running, rfl, by decide, by decide⟩

/-- The offsets of the clauses are those of `witness_RegisterReadsFollowTheMap`. -/
theorem witness_RegisterWritesStoreTheirFields : State.reset.rst = false ∧ State.reset.busy = false := by decide

theorem witness_StatusWriteClearsDoneAndWerrOnly :
    State.reset.rst = false ∧ (running 6 [] State.reset).rst = false ∧ 0x0B#8 &&& 0xFC#8 = 0x08#8 ∧
      ((0#32).getLsbD 1 = false ∧ (0#32).getLsbD 8 = false) ∧ ((2#32).getLsbD 1 = true ∧ (2#32).getLsbD 8 = false) ∧
      ((0x100#32).getLsbD 1 = false ∧ (0x100#32).getLsbD 8 = true) ∧
      ((0xFFFFFFFF#32).getLsbD 1 = true ∧ (0xFFFFFFFF#32).getLsbD 8 = true) := by decide

theorem witness_IntenIsWrittenAtAnyTime :
    (running 6 [] State.reset).rst = false ∧ 0x0F#8 &&& 0xFC#8 = 0x0C#8 := by decide

/-- A running block, and a step of it that is not a reset; the offsets are those of `witness_RegisterReadsFollowTheMap`. -/
theorem witness_GuardedWritesAreDroppedWhileBusy :
    (running 6 [] State.reset).rst = false ∧ (running 6 [] State.reset).busy = true ∧
      (running 6 [.wr 0x10 5] State.reset).pending.head? ≠ some .rstOn ∧
      (after (step (running 6 [.wr 0x10 5] State.reset))).isSome = true := by decide +kernel

theorem witness_IrqRisesAtCompletionAndFalls :
    { State.reset with done := true, doneIe := true }.done = true ∧
      (running 3 [] State.reset).aboutToComplete 3 ∧
      (∀ off ∈ [0x08#8, 0x04#8, 0x0C#8],
        (waiting [.wr off 2] State.reset).pending.head? = some (.wr off 2) ∧
          (after (step (waiting [.wr off 2] State.reset))).isSome = true) ∧
      ((2#32).getLsbD 1 = true ∧ (2#32).getLsbD 0 = false ∧ (waiting [.wr 0x04 2] State.reset).busy = false) ∧
      (waiting [.rstOn] State.reset).pending.head? = some .rstOn :=
  ⟨rfl, ⟨rfl, rfl, .inl rfl⟩, by decide +kernel, by decide, rfl⟩

/-- The last address of each space and the first outside it. -/
theorem witness_MemoryPortsReadAndWriteCells :
    { State.reset with rst := true }.rst = true ∧ State.reset.rst = false ∧ State.reset.busy = false ∧ (running 6 [] State.reset).busy = true ∧
      (4095 < State.reset.cfg.pixSize ∧ 255 < State.reset.cfg.paySize ∧ 4095 < State.reset.cfg.bitSize) ∧
      (State.reset.cfg.size .pix ≤ 4096 ∧ State.reset.cfg.size .pay ≤ 256 ∧ State.reset.cfg.size .bit ≤ 4096) := by
  decide

theorem witness_OneAgentOwnsMemoryAtATime :
    (running 6 [.wrm .pix 0 1] State.reset).busy = true ∧ (Input.wrm .pix 0 1).isTransaction = true ∧
      (after (step (running 6 [.wrm .pix 0 1] State.reset))).isSome = true ∧
      State.reset.busy = false ∧ State.reset.pending = [] ∧ (after (step State.reset)).isSome = true := by decide +kernel

/-- BUSY rises at a CMD write; it falls at a completion, and at a reset. -/
theorem witness_BusyChangesOnlyAtAcceptanceCompletionAndReset :
    State.reset.busy = false ∧ (after (step (waiting [.wr 0x04 3] State.reset))).map State.busy = some true ∧
      (running 3 [] State.reset).busy = true ∧ (after (step (running 3 [] State.reset))).map State.busy = some false ∧
      (after (step (running 3 [.rstOn] State.reset))).map State.busy = some false := by decide +kernel

/-- DONE rises at a completion; it falls at a CMD write, at a STATUS write with bit 1 set, and at a reset. -/
theorem witness_DoneChangesOnlyAtItsEvents :
    (running 3 [] State.reset).done = false ∧ (after (step (running 3 [] State.reset))).map State.done = some true ∧
      ∀ i ∈ [Input.wr 0x04 3, .wr 0x08 2, .rstOn],
        (after (step (waiting [i] { State.reset with done := true }))).map State.done = some false := by decide +kernel

/-- WERR rises at a dropped register write and at a dropped memory write; it falls at a STATUS write with bit 8 set and at
a reset. -/
theorem witness_WerrIsStickyAndSetByDroppedWrites :
    (running 3 [] State.reset).werr = false ∧
      (∀ i ∈ [Input.wr 0x10 5, .wrm .pay 0 1],
        (after (step (running 3 [i] State.reset))).map State.werr = some true) ∧
      ∀ i ∈ [Input.wr 0x08 0x100, .rstOn],
        (after (step (waiting [i] { State.reset with werr := true }))).map State.werr = some false := by decide +kernel

theorem witness_ResetValuesOfTheRegisters :
    (waiting [.rstOn] State.reset).pending.head? = some .rstOn ∧
      (after (step (waiting [.rstOn] State.reset))).isSome = true := by decide +kernel

/-- Commands that end without an error, and one that does not. -/
theorem witness_ResetKeepsMemory_results :
    result .embed State.reset State.err = some .capacity ∧
      result .bytes2bits State.reset State.err = some .ok ∧ result .frame State.reset State.err = some .ok ∧
      result .bits2bytes State.reset State.err = some .ok ∧
      result .unframe (withBits 40 framedA) State.err = some .ok ∧
      result .extract (withGrid 11 1 3 (List.replicate 33 0) State.reset) State.err = some .ok ∧
      result .embed (withGrid 11 1 3 [] State.reset) State.err = some .ok := by decide +kernel

/-- A reset while idle; while an illegal word, a SETLSB and each other command runs. -/
theorem witness_ResetKeepsMemoryOutsideTheWriteSet :
    State.reset.busy = false ∧ State.reset.cfg.wf = true ∧
      decode 0x11 = .error .rsvdNonzero ∧ decode 3 = .ok .setlsb ∧
      ∀ w : Word, (running w [.rstOn] State.reset).pending.head? = some .rstOn ∧
        (running w [.rstOn] State.reset).eng = .busy w ∧ ∃ t, step (running w [.rstOn] State.reset) = .next t :=
  ⟨rfl, by decide, by decide, by decide, fun _ => ⟨rfl, rfl, _, rfl⟩⟩

/-- Blocks under reset, with a register read and with a memory read to come, meet the invariant. -/
theorem witness_HeldResetBlocksTheHost :
    ∀ i ∈ [Input.rd 0x18, .rdm .pay 255, .rdm .pay 256],
      { State.reset with rst := true, pending := [i] }.rst = true ∧
        { State.reset with rst := true, pending := [i] }.Inv ∧
        { State.reset with rst := true, pending := [i] }.pending.head? ≠ some .rstOff ∧
        (after (step { State.reset with rst := true, pending := [i] })).isSome = true := by
  intro i hi
  refine ⟨rfl, ⟨rfl, rfl, rfl, rfl, Nat.two_pow_pos _, Nat.two_pow_pos _, nofun, fun _ => rfl⟩, ?_⟩
  simp only [List.mem_cons, List.not_mem_nil, or_false] at hi
  rcases hi with rfl | rfl | rfl <;> exact ⟨by decide, by decide +kernel⟩

theorem witness_InvariantHoldsAtPowerOn : Config.reference.wf = true ∧ Config.wf ⟨1, 1, 1, 1⟩ = true := by decide

theorem witness_EveryStepKeepsTheInvariant :
    (running 6 [] State.reset).Inv ∧ ∃ t, step (running 6 [] State.reset) = .next t :=
  ⟨witness_inv_running, _, rfl⟩

theorem witness_AcceptedCommandCompletes :
    (running 6 [.rd 0x08, .wrm .pix 0 1, .engine] State.reset).rst = false ∧
      (running 6 [.rd 0x08, .wrm .pix 0 1, .engine] State.reset).eng = .busy 6 ∧
      Input.rstOn ∉ (running 6 [.rd 0x08, .wrm .pix 0 1, .engine] State.reset).pending := by decide

theorem witness_TransactionsWhileBusyDoNotAlterTheCommand :
    (running 3 [] State.reset).rst = false ∧ (running 3 [] State.reset).eng = .busy 3 ∧
      (∀ i ∈ [Input.wr 0x10 5], i.isTransaction = true) ∧
      (after (Sys2Proof.core.run 2 (running 3 [.wr 0x10 5, .engine] State.reset))).isSome = true ∧
      (after (step (running 3 [.engine] State.reset))).isSome = true := by decide +kernel

theorem witness_WaitEndsWithTheCommandComplete :
    (running 3 (hostWAIT 2) State.reset).rst = false ∧ (running 3 (hostWAIT 2) State.reset).eng = .busy 3 ∧
      (running 3 (hostWAIT 0) State.reset).pending = [.engine, .rd 0x08] := by decide

theorem witness_PseudoInstructionsDoWhatTheyStandFor :
    State.reset.rst = false ∧ State.reset.busy = false ∧ (2 ^ 64 - 1 : Nat) < 2 ^ 64 ∧
      (waiting (hostWR64Len (2 ^ 64 - 1)) State.reset).pending = [.wr 0x1C 0xFFFFFFFF, .wr 0x20 0xFFFFFFFF] ∧
      (waiting (hostCMD .embed) State.reset).pending = [.wr 0x04 6] ∧
      254 + [1, 2].length ≤ State.reset.cfg.size .pay := by decide +kernel

theorem witness_PseudoInstructions_inv : (waiting hostRD64Cap State.reset).Inv :=
  ⟨by decide, by decide, by decide, by decide, by decide, by decide, fun h => absurd h (by decide),
    fun h => absurd h (by decide)⟩

end Sys2Proof.Tests
end

section
/-! The invariant at power-on (00_scope.md rules R10 and R11, 10_state.md rule R44). -/

namespace Sys2Proof.Machine

/-- Power-on writes no cell (rule R222), so each memory starts in its canonical form, whatever its size. -/
theorem Memory.wf_nil {α : Type} (n : Nat) : Memory.wf ([] : Memory α) n = true := rfl

theorem reference_wf : Config.reference.wf = true := by decide

/-- The ranges of the parameters are all the invariant asks of a power-on state: WIDTH and HEIGHT are 0, no command runs
and `rst` is released. -/
theorem poweredOn_inv {c : Config} (hc : c.wf = true) : (State.poweredOn c).Inv where
  cfg := hc
  pix := Memory.wf_nil c.pixSize
  pay := Memory.wf_nil c.paySize
  bit := Memory.wf_nil c.bitSize
  width := Nat.two_pow_pos c.dimW
  height := Nat.two_pow_pos c.dimW
  busy _ := ⟨rfl, rfl⟩
  held _ := rfl

/-- Settles O42: a power-on state in range meets the invariant, and `State.reset` is the one of the reference
configuration. -/
theorem invariantHoldsAtPowerOn : Obligations.InvariantHoldsAtPowerOn :=
  ⟨fun _ hc => poweredOn_inv hc, poweredOn_inv reference_wf⟩

end Sys2Proof.Machine
end

section
/-! O43: each operation of a step keeps the invariant, and no operation changes the parameters. Where `rst` is not held,
the invariant's last clause asks nothing, so a write has only to keep the others. -/

namespace Sys2Proof.Machine

variable {s t : State}

/-! ## The parameters are constant (00_scope.md rule R13) -/

theorem storeReg_cfg (r : Reg) (v : Word) (s : State) : (storeReg v s r).cfg = s.cfg := by cases r <;> rfl

theorem portWrite_cfg (off : BitVec 8) (v : Word) (s : State) : (portWrite off v s).cfg = s.cfg := by
  rcases portWrite_cases off v s with ⟨-, h⟩ | ⟨r, -, -, -, h⟩ | ⟨r, -, -, h⟩
  · rw [h]
  · rw [h, setWerr_cfg]
  · rw [h, storeReg_cfg]

theorem storeCell_cfg (sp : Space) (a v : Nat) (s : State) : (storeCell sp a v s).cfg = s.cfg := by cases sp <;> rfl

theorem memPortWrite_cfg (sp : Space) (a v : Nat) (s : State) : (memPortWrite sp a v s).cfg = s.cfg := by
  rcases memPortWrite_cases sp a v s with ⟨-, h⟩ | ⟨-, -, h⟩ | ⟨-, -, h⟩
  · rw [h, setWerr_cfg]
  · rw [h]
  · rw [h, storeCell_cfg]

theorem assertRst_cfg (s : State) : (assertRst s).cfg = s.cfg := by
  obtain ⟨a, b, c, d, h⟩ := resetMemory_frame s
  rw [assertRst, h]
  rfl

theorem hostTurn_cfg (i : Input) (s : State) : (hostTurn i s).cfg = s.cfg := by
  cases i with
  | wr off v => cases hr : s.rst <;> simp [hostTurn, hr, portWrite_cfg]
  | wrm sp a v => cases hr : s.rst <;> simp [hostTurn, hr, memPortWrite_cfg]
  | rstOn => exact assertRst_cfg s
  | rd | rdm | rstOff | engine => rfl

theorem complete_cfg (r : Except ErrCode Held) (s : State) : (complete r s).cfg = s.cfg := by rw [complete_frame]

theorem engineTurn_cfg (h : engineTurn s = .next t) : t.cfg = s.cfg := by
  rcases engineTurn_cases h with ⟨-, rfl⟩ | ⟨w, i, -, -, -, rfl⟩ | ⟨w, e, -, -, -, rfl⟩
  · rfl
  · exact complete_cfg _ s
  · rfl

theorem step_cfg (h : step s = .next t) : t.cfg = s.cfg := by
  rcases step_cases h with ⟨-, h⟩ | ⟨rest, -, h⟩ | ⟨i, rest, -, -, rfl⟩
  · exact (engineTurn_cfg h).trans (dropInput_cfg s)
  · exact (engineTurn_cfg h).trans (dropInput_cfg s)
  · exact hostTurn_cfg i (dropInput s)

/-! ## The host's writes -/

theorem dropInput_inv (h : s.Inv) : (dropInput s).Inv :=
  { h with held := fun hr => congrArg dropInput (h.held hr) }

theorem record_inv (r : Record) (h : s.Inv) : (record r s).Inv :=
  { h with held := fun hr => congrArg (record r) (h.held hr) }

/-- Where `rst` is released, nothing is asked of a held reset. -/
theorem of_not_held {p : Prop} (hr : s.rst = false) : s.rst = true → p := fun h => nomatch hr.symm.trans h

theorem setWerr_inv (h : s.Inv) (hr : s.rst = false) : (setWerr s).Inv :=
  { h with held := of_not_held hr }

theorem truncDim_lt (c : Config) (v : Word) : (truncDim c v).toNat < 2 ^ c.dimW := by
  rw [truncDim_toNat]
  exact Nat.mod_lt _ (Nat.two_pow_pos _)

theorem storeReg_inv (r : Reg) (v : Word) (h : s.Inv) (hr : s.rst = false) : (storeReg v s r).Inv := by
  cases r with
  | cmd => exact { h with busy := fun _ => ⟨rfl, rfl⟩, held := of_not_held hr }
  | status =>
    exact { h with
      busy := fun hb => ⟨by simp [storeReg, (h.busy hb).1], (h.busy hb).2⟩
      held := of_not_held hr }
  | width => exact { h with width := truncDim_lt s.cfg v, held := of_not_held hr }
  | height => exact { h with height := truncDim_lt s.cfg v, held := of_not_held hr }
  | inten | channels | lenLo | lenHi | bitcntLo | bitcntHi | lsbIn =>
    exact { h with held := of_not_held hr }
  | id | outcntLo | outcntHi | lsbOut | hdr | capLo | capHi => exact h

theorem portWrite_inv (off : BitVec 8) (v : Word) (h : s.Inv) (hr : s.rst = false) : (portWrite off v s).Inv := by
  rcases portWrite_cases off v s with ⟨-, he⟩ | ⟨r, -, -, -, he⟩ | ⟨r, -, -, he⟩ <;> rw [he]
  · exact h
  · exact setWerr_inv h hr
  · exact storeReg_inv r v h hr

theorem storeCell_inv {sp : Space} {a : Nat} (v : Nat) (h : s.Inv) (hr : s.rst = false) (ha : a < s.cfg.size sp) :
    (storeCell sp a v s).Inv := by
  cases sp with
  | pix => exact { h with pix := Memory.write_wf _ h.pix ha, held := of_not_held hr }
  | pay => exact { h with pay := Memory.write_wf _ h.pay ha, held := of_not_held hr }
  | bit => exact { h with bit := Memory.write_wf _ h.bit ha, held := of_not_held hr }

theorem memPortWrite_inv (sp : Space) (a v : Nat) (h : s.Inv) (hr : s.rst = false) : (memPortWrite sp a v s).Inv := by
  rcases memPortWrite_cases sp a v s with ⟨-, he⟩ | ⟨-, -, he⟩ | ⟨-, ha, he⟩ <;> rw [he]
  · exact setWerr_inv h hr
  · exact h
  · exact storeCell_inv v h hr ha

/-! ## The reset input -/

/-- An abandoned command's redrawn cells lie in their spaces, so each memory stays in its canonical form. -/
theorem redrawn_wf {α : Type} {m : Memory α} {n : Nat} {cs : List (Nat × α)} (f : Nat → α) (h : Memory.wf m n = true)
    (hc : ∀ c ∈ cs, c.1 < n) : Memory.wf (Memory.writeAll m (cs.map fun c => (c.1, f c.1))) n = true := by
  refine Memory.writeAll_wf h fun c hm => ?_
  obtain ⟨c', hc', rfl⟩ := List.mem_map.mp hm
  exact hc c' hc'

/-- Under a held reset the invariant asks for the parameters' ranges and the memories' form only. -/
theorem resetRegisters_held_inv (hc : s.cfg.wf = true) (hpix : Memory.wf s.pix s.cfg.pixSize = true)
    (hpay : Memory.wf s.pay s.cfg.paySize = true) (hbit : Memory.wf s.bit s.cfg.bitSize = true) :
    State.Inv { resetRegisters s with rst := true } where
  cfg := hc
  pix := hpix
  pay := hpay
  bit := hbit
  width := Nat.two_pow_pos s.cfg.dimW
  height := Nat.two_pow_pos s.cfg.dimW
  busy _ := ⟨rfl, rfl⟩
  held _ := rfl

theorem assertRst_inv (h : s.Inv) : (assertRst s).Inv := by
  unfold assertRst
  cases he : s.eng with
  | idle =>
    rw [resetMemory_idle he]
    exact resetRegisters_held_inv h.cfg h.pix h.pay h.bit
  | busy w =>
    rw [resetMemory_busy he]
    obtain ⟨hpix, hpay, hbit⟩ := heldOf_cells_lt w s
    exact resetRegisters_held_inv h.cfg (redrawn_wf (Config.freeByte s.draws) h.pix hpix)
      (redrawn_wf (Config.freeByte s.draws) h.pay hpay) (redrawn_wf (Config.freeBit s.draws) h.bit hbit)

theorem releaseRst_inv (h : s.Inv) : (releaseRst s).Inv :=
  { h with held := of_not_held (releaseRst_rst s) }

/-! ## Completions and turns -/

theorem complete_plan_inv (i : Instr) (h : s.Inv) (hr : s.rst = false) : (complete (plan i s) s).Inv := by
  cases hp : plan i s with
  | error e => exact { h with busy := fun hb => (nomatch hb), held := of_not_held hr }
  | ok held =>
    obtain ⟨hpix, hpay, hbit⟩ := plan_cells_lt hp
    exact { h with
      pix := Memory.writeAll_wf h.pix hpix
      pay := Memory.writeAll_wf h.pay hpay
      bit := Memory.writeAll_wf h.bit hbit
      busy := fun hb => (nomatch hb)
      held := of_not_held hr }

theorem completeErr_inv (e : ErrCode) (h : s.Inv) (hr : s.rst = false) : (completeErr e s).Inv :=
  { h with busy := fun hb => (nomatch hb), held := of_not_held hr }

theorem engineTurn_inv (h : s.Inv) (ht : engineTurn s = .next t) : t.Inv := by
  rcases engineTurn_cases ht with ⟨-, rfl⟩ | ⟨w, i, hr, -, -, rfl⟩ | ⟨w, e, hr, -, -, rfl⟩
  · exact h
  · exact complete_plan_inv i h hr
  · exact completeErr_inv .illegalOp h hr

theorem hostTurn_inv (i : Input) (h : s.Inv) : (hostTurn i s).Inv := by
  cases i with
  | wr off v =>
    refine record_inv _ ?_
    split
    · exact h
    · next hr => exact portWrite_inv off v h (by simpa using hr)
  | wrm sp a v =>
    refine record_inv _ ?_
    split
    · exact h
    · next hr => exact memPortWrite_inv sp a v h (by simpa using hr)
  | rd | rdm => exact record_inv _ h
  | rstOn => exact assertRst_inv h
  | rstOff => exact releaseRst_inv h
  | engine => exact h

theorem step_inv (h : s.Inv) (hs : step s = .next t) : t.Inv := by
  rcases step_cases hs with ⟨-, ht⟩ | ⟨rest, -, ht⟩ | ⟨i, rest, -, -, rfl⟩
  · exact engineTurn_inv (dropInput_inv h) ht
  · exact engineTurn_inv (dropInput_inv h) ht
  · exact hostTurn_inv i (dropInput_inv h)

/-- Settles O43: whichever turn the step is, it keeps the invariant and the parameters. -/
theorem everyStepKeepsTheInvariant : Obligations.EveryStepKeepsTheInvariant :=
  fun _ _ h hs => ⟨step_inv h hs, step_cfg hs⟩

end Sys2Proof.Machine
end

section
/-! O27 to O31: the register port at an offset, by the register that bits [7:2] of the offset select (10_state.md rule
R23). The inputs to come play no part in what a register reads as, nor in what a write stores. -/

namespace Sys2Proof.Machine

variable {s : State} {off : BitVec 8} {r : Reg}

/-- The converse of `offset_of_ofOffset`: the register at its own offset, bits [1:0] ignored. -/
theorem ofOffset_of_offset (h : off &&& 0xFC#8 = r.offset) : Reg.ofOffset off = some r :=
  (ofOffset_of_and h).trans (by cases r <;> rfl)

theorem readReg_withPending (s : State) (rest : List Input) (r : Reg) :
    readReg { s with pending := rest } r = readReg s r := by cases r <;> rfl

theorem reads_register (hr : s.rst = false) (ho : off &&& 0xFC#8 = r.offset) {n : Nat} (hn : (readReg s r).toNat = n) :
    s.reads off n := by
  subst hn
  refine reads_of hr fun rest => ?_
  rw [portRead_of (ofOffset_of_offset ho), readReg_withPending]

theorem reads_none (hr : s.rst = false) (ho : 0x48 ≤ (off &&& 0xFC#8).toNat) : s.reads off 0 := by
  refine reads_of (v := 0) hr fun rest => ?_
  simp [portRead, ofOffset_none ho]

theorem writes_register {t : State} {v : Word} (hr : s.rst = false) (hb : s.busy = false ∨ r.guarded = false)
    (ho : off &&& 0xFC#8 = r.offset)
    (ht : ∀ rest, storeReg v { s with pending := rest } r = { t with pending := rest, log := s.log }) :
    s.writes off v t := writes_store hr hb (ofOffset_of_offset ho) ht

/-! ## What the fields read as -/

theorem inten_toNat (s : State) : (readReg s .inten).toNat = s.doneIe.toNat := by
  simp only [readReg]
  cases s.doneIe <;> rfl

theorem capReg_toNat (s : State) : (capReg s).toNat = s.gridW * s.gridH * 3 % 2 ^ 64 := BitVec.toNat_ofNat _ _

theorem capLo_toNat (s : State) : (readReg s .capLo).toNat = s.gridW * s.gridH * 3 % 2 ^ 32 := by
  have h := loHalf_toNat (capReg s)
  rw [capReg_toNat] at h
  exact h.trans (Nat.mod_mod_of_dvd _ (Nat.pow_dvd_pow 2 (by decide)))

theorem capHi_toNat (s : State) : (readReg s .capHi).toNat = s.gridW * s.gridH * 3 % 2 ^ 64 / 2 ^ 32 := by
  have h := hiHalf_toNat (capReg s)
  rwa [capReg_toNat] at h

/-- WIDTH and HEIGHT hold at most 31 bits each, so the capacity fits 64 bits (rules R10 and R41). -/
theorem capacity_lt (h : s.Inv) : s.gridW * s.gridH * 3 < 2 ^ 64 := by
  obtain ⟨-, hd, -⟩ := wf_bounds h.cfg
  have hp : 2 ^ s.cfg.dimW ≤ 2 ^ 31 := Nat.pow_le_pow_right (by decide) hd
  have hw : s.gridW ≤ 2 ^ 31 := (Nat.le_of_lt h.width).trans hp
  have hh : s.gridH ≤ 2 ^ 31 := (Nat.le_of_lt h.height).trans hp
  have := Nat.mul_le_mul hw hh
  omega

/-- Settles O27: each clause reads its register, and every field's value is that of its own lemma. -/
theorem registerReadsFollowTheMap : Obligations.RegisterReadsFollowTheMap := fun s _ hr =>
  ⟨fun h => reads_register (r := .id) hr h rfl,
    fun h => reads_register (r := .cmd) hr h rfl,
    fun h => reads_register (r := .status) hr h (statusWord_toNat s),
    fun h => reads_register (r := .inten) hr h (inten_toNat s),
    fun h => reads_register (r := .width) hr h rfl,
    fun h => reads_register (r := .height) hr h rfl,
    fun h => reads_register (r := .channels) hr h (BitVec.toNat_setWidth_of_le (by decide)),
    fun h => reads_register (r := .lenLo) hr h (loHalf_toNat s.len),
    fun h => reads_register (r := .lenHi) hr h (hiHalf_toNat s.len),
    fun h => reads_register (r := .bitcntLo) hr h (loHalf_toNat s.bitcnt),
    fun h => reads_register (r := .bitcntHi) hr h (hiHalf_toNat s.bitcnt),
    fun h => reads_register (r := .outcntLo) hr h (loHalf_toNat s.outcnt),
    fun h => reads_register (r := .outcntHi) hr h (hiHalf_toNat s.outcnt),
    fun h => reads_register (r := .lsbIn) hr h (BitVec.toNat_setWidth_of_le (by decide)),
    fun h => reads_register (r := .lsbOut) hr h (BitVec.toNat_setWidth_of_le (by decide)),
    fun h => reads_register (r := .hdr) hr h rfl,
    fun h => reads_register (r := .capLo) hr h (capLo_toNat s),
    fun h => reads_register (r := .capHi) hr h (capHi_toNat s),
    reads_none hr,
    fun h => ⟨h.width, h.height, capacity_lt h⟩⟩

/-! ## What the writes store -/

/-- A write of a register that stores nothing and is not guarded is ignored, busy or not (rules R24, R37, R39 to R41). -/
theorem writes_readOnly {v : Word} (hr : s.rst = false) (ho : off &&& 0xFC#8 = r.offset) (hg : r.guarded = false)
    (hs : ∀ t, storeReg v t r = t) : s.writes off v s :=
  writes_register hr (.inr hg) ho fun rest => hs { s with pending := rest }

/-- Settles O28: the capacity fits CAP, so reducing it modulo 2^64 loses nothing. -/
theorem capReadsAsWidthTimesHeightTimesThree : Obligations.CapReadsAsWidthTimesHeightTimesThree := by
  intro s off hi hr
  have hlt := capacity_lt hi
  have hhi := capHi_toNat s
  rw [Nat.mod_eq_of_lt hlt] at hhi
  exact ⟨hlt,
    fun h => ⟨reads_register (r := .capLo) hr h (capLo_toNat s),
      fun _ => writes_readOnly (r := .capLo) hr h rfl fun _ => rfl⟩,
    fun h => ⟨reads_register (r := .capHi) hr h hhi,
      fun _ => writes_readOnly (r := .capHi) hr h rfl fun _ => rfl⟩⟩

/-- Settles O29: each field takes what `storeReg` gives it, as a number by the lemma about the field. -/
theorem registerWritesStoreTheirFields : Obligations.RegisterWritesStoreTheirFields := fun s off v hr hb =>
  ⟨fun h => ⟨_, truncDim_toNat s.cfg v, writes_register (r := .width) hr (.inl hb) h fun _ => rfl⟩,
    fun h => ⟨_, truncDim_toNat s.cfg v, writes_register (r := .height) hr (.inl hb) h fun _ => rfl⟩,
    fun h => ⟨_, BitVec.toNat_setWidth 3 v, writes_register (r := .channels) hr (.inl hb) h fun _ => rfl⟩,
    fun h => ⟨_, withLo_toNat s.len v, writes_register (r := .lenLo) hr (.inl hb) h fun _ => rfl⟩,
    fun h => ⟨_, withHi_toNat s.len v, writes_register (r := .lenHi) hr (.inl hb) h fun _ => rfl⟩,
    fun h => ⟨_, withLo_toNat s.bitcnt v, writes_register (r := .bitcntLo) hr (.inl hb) h fun _ => rfl⟩,
    fun h => ⟨_, withHi_toNat s.bitcnt v, writes_register (r := .bitcntHi) hr (.inl hb) h fun _ => rfl⟩,
    fun h => ⟨_, BitVec.toNat_setWidth 9 v, writes_register (r := .lsbIn) hr (.inl hb) h fun _ => rfl⟩,
    fun h => by
      rcases h with h | h | h | h | h | h | h | h
      · exact writes_readOnly (r := .id) hr h rfl fun _ => rfl
      · exact writes_readOnly (r := .outcntLo) hr h rfl fun _ => rfl
      · exact writes_readOnly (r := .outcntHi) hr h rfl fun _ => rfl
      · exact writes_readOnly (r := .lsbOut) hr h rfl fun _ => rfl
      · exact writes_readOnly (r := .hdr) hr h rfl fun _ => rfl
      · exact writes_readOnly (r := .capLo) hr h rfl fun _ => rfl
      · exact writes_readOnly (r := .capHi) hr h rfl fun _ => rfl
      · exact writes_none hr (ofOffset_none h)⟩

/-! ## STATUS and INTEN -/

/-- STATUS is not guarded, so a write of it has its effects busy or not (rule R30). -/
theorem writes_status (hr : s.rst = false) (ho : off &&& 0xFC#8 = Reg.offset .status) (v : Word) :
    s.writes off v { s with done := s.done && !v.getLsbD 1, werr := s.werr && !v.getLsbD 8 } :=
  writes_register (r := .status) hr (.inr rfl) ho fun _ => rfl

/-- Bits [3:2] and [31:9] of STATUS lie in the word's two runs of zeros, or past it (rule R30). -/
theorem statusWord_reserved (s : State) {i : Nat} (hi : i = 2 ∨ i = 3 ∨ 9 ≤ i) : (statusWord s).getLsbD i = false := by
  simp only [statusWord, BitVec.getLsbD_append]
  rcases hi with rfl | rfl | hi
  · rfl
  · rfl
  · simp [show ¬i < 1 by omega, show ¬i - 1 < 1 by omega, show ¬i - 1 - 1 < 2 by omega,
      show ¬i - 1 - 1 - 2 < 4 by omega, show ¬i - 1 - 1 - 2 - 4 < 1 by omega]

/-- Settles O30: the four clauses are the write of STATUS at the four values of bits 1 and 8. -/
theorem statusWriteClearsDoneAndWerrOnly : Obligations.StatusWriteClearsDoneAndWerrOnly := by
  intro s off v hr ho
  have h := writes_status hr ho v
  refine ⟨fun h1 h8 => ?_, fun h1 h8 => ?_, fun h1 h8 => ?_, fun h1 h8 => ?_, fun i => statusWord_reserved s⟩
  all_goals simpa only [h1, h8, Bool.not_false, Bool.not_true, Bool.and_true, Bool.and_false] using h

/-- Settles O31: INTEN is not guarded. -/
theorem intenIsWrittenAtAnyTime : Obligations.IntenIsWrittenAtAnyTime := fun s _ _ hr ho =>
  ⟨writes_register (r := .inten) hr (.inr rfl) ho fun _ => rfl, reads_register (r := .inten) hr ho (inten_toNat s)⟩

end Sys2Proof.Machine
end

section
/-! O36 to O38: what one step can do to BUSY, DONE and WERR. `StatusEvent` names the events of 10_state.md rules R26, R27
and R29 with what each leaves in the flags, and every step is one of them; the converse is computed for each event. -/

namespace Sys2Proof.Machine

variable {s t : State}

/-! ## Each event's effect -/

theorem hostTurn_wr_held (hr : s.rst = true) (off : BitVec 8) (v : Word) :
    hostTurn (.wr off v) s = record ⟨.reg, .w, off.toNat, v.toNat⟩ s := by simp [hostTurn, hr]

theorem hostTurn_wr (hr : s.rst = false) (off : BitVec 8) (v : Word) :
    hostTurn (.wr off v) s = record ⟨.reg, .w, off.toNat, v.toNat⟩ (portWrite off v s) := by simp [hostTurn, hr]

theorem hostTurn_wrm_held (hr : s.rst = true) (sp : Space) (a v : Nat) :
    hostTurn (.wrm sp a v) s = record ⟨.mem sp, .w, a, v⟩ s := by simp [hostTurn, hr]

theorem hostTurn_wrm (hr : s.rst = false) (sp : Space) (a v : Nat) :
    hostTurn (.wrm sp a v) s = record ⟨.mem sp, .w, a, v⟩ (memPortWrite sp a v s) := by simp [hostTurn, hr]

/-- A register write as a step, where the host's transactions have an effect. -/
theorem step_wr {off : BitVec 8} {v : Word} {rest : List Input} {r : Reg} (hs : step s = .next t)
    (hp : s.pending = .wr off v :: rest) (hr : s.rst = false) (ho : Reg.ofOffset off = some r) :
    t = record ⟨.reg, .w, off.toNat, v.toNat⟩ (writeReg r v (dropInput s)) := by
  rw [host_next hp (by simp) hs, hostTurn_wr (s := dropInput s) hr, portWrite_of ho]

theorem step_cmd_write {off : BitVec 8} {v : Word} {rest : List Input} (hs : step s = .next t)
    (hp : s.pending = .wr off v :: rest) (hr : s.rst = false) (hb : s.busy = false) (ho : off &&& 0xFC#8 = 0x04#8) :
    t.eng = .busy v ∧ t.done = false := by
  rw [step_wr hs hp hr (ofOffset_of_offset (r := .cmd) ho), writeReg_of_idle (s := dropInput s) hb]
  exact ⟨rfl, rfl⟩

theorem step_status_write {off : BitVec 8} {v : Word} {rest : List Input} (hs : step s = .next t)
    (hp : s.pending = .wr off v :: rest) (hr : s.rst = false) (ho : off &&& 0xFC#8 = 0x08#8) :
    t.done = (s.done && !v.getLsbD 1) ∧ t.werr = (s.werr && !v.getLsbD 8) := by
  rw [step_wr hs hp hr (ofOffset_of_offset (r := .status) ho), writeReg_of_not_guarded rfl]
  exact ⟨rfl, rfl⟩

theorem step_rstOn {rest : List Input} (hs : step s = .next t) (hp : s.pending = .rstOn :: rest) :
    t = assertRst (dropInput s) := host_next hp (by simp) hs

/-- The flags after a completion (60_exceptions.md rules R191 and R192). -/
theorem step_completion {w : Word} (hs : step s = .next t) (h : s.aboutToComplete w) :
    t.eng = .idle ∧ t.done = true ∧ t.werr = s.werr := by
  obtain ⟨r, rfl⟩ := step_aboutToComplete h hs
  obtain ⟨heng, hdone⟩ := complete_status r (dropInput s)
  exact ⟨heng, hdone, by rw [complete_frame]; rfl⟩

/-! ## The events -/

/-- The next input is a write that a running command makes the block drop: of a guarded register (rule R42) or of a memory
cell (20_memory.md rule R82). -/
def State.droppableWriteNext (s : State) : Prop :=
  (∃ off v rest r, s.pending = .wr off v :: rest ∧ Reg.ofOffset off = some r ∧ r.guarded = true) ∨
    ∃ sp a v rest, s.pending = .wrm sp a v :: rest

theorem step_dropped (hs : step s = .next t) (hr : s.rst = false) (hb : s.busy = true) (h : s.droppableWriteNext) :
    t.werr = true := by
  rcases h with ⟨off, v, rest, r, hp, ho, hg⟩ | ⟨sp, a, v, rest, hp⟩
  · rw [step_wr hs hp hr ho, writeReg_of_guarded (s := dropInput s) hb hg]
    rfl
  · rw [host_next hp (by simp) hs, hostTurn_wrm (s := dropInput s) hr,
      memPortWrite_of_busy (s := dropInput s) hb]
    rfl

/-- What a step from `s` to `t` is to BUSY, DONE and WERR. -/
inductive StatusEvent (s t : State) : Prop where
  | quiet (heng : t.eng = s.eng) (hdone : t.done = s.done) (hwerr : t.werr = s.werr)
  | completion (w : Word) (h : s.aboutToComplete w)
      (heng : t.eng = .idle) (hdone : t.done = true) (hwerr : t.werr = s.werr)
  | reset (rest : List Input) (hp : s.pending = .rstOn :: rest)
      (heng : t.eng = .idle) (hdone : t.done = false) (hwerr : t.werr = false)
  | acceptance (off : BitVec 8) (v : Word) (rest : List Input) (hp : s.pending = .wr off v :: rest)
      (ho : off &&& 0xFC#8 = 0x04#8) (hb : s.busy = false)
      (heng : t.eng = .busy v) (hdone : t.done = false) (hwerr : t.werr = s.werr)
  | statusWrite (off : BitVec 8) (v : Word) (rest : List Input) (hp : s.pending = .wr off v :: rest)
      (ho : off &&& 0xFC#8 = 0x08#8)
      (heng : t.eng = s.eng) (hdone : t.done = (s.done && !v.getLsbD 1)) (hwerr : t.werr = (s.werr && !v.getLsbD 8))
  | drop (hb : s.busy = true) (h : s.droppableWriteNext)
      (heng : t.eng = s.eng) (hdone : t.done = s.done) (hwerr : t.werr = true)

theorem engineTurn_event (hp : s.pending = [] ∨ ∃ rest, s.pending = .engine :: rest) (hs : step s = .next t) :
    StatusEvent s t := by
  have ht := hs
  rw [step_engine hp] at ht
  rcases engineTurn_cases ht with ⟨-, rfl⟩ | ⟨w, -, hr, he, -⟩ | ⟨w, -, hr, he, -⟩
  · exact .quiet rfl rfl rfl
  all_goals
    obtain ⟨heng, hdone, hwerr⟩ := step_completion hs ⟨hr, he, hp⟩
    exact .completion w ⟨hr, he, hp⟩ heng hdone hwerr

theorem register_write_event {off : BitVec 8} {v : Word} {rest : List Input} (hp : s.pending = .wr off v :: rest) :
    StatusEvent s (hostTurn (.wr off v) (dropInput s)) := by
  cases hr : s.rst with
  | true =>
    rw [hostTurn_wr_held (s := dropInput s) hr]
    exact .quiet rfl rfl rfl
  | false =>
    rw [hostTurn_wr (s := dropInput s) hr]
    rcases portWrite_cases off v (dropInput s) with ⟨-, h⟩ | ⟨r, ho, hb, hg, h⟩ | ⟨r, ho, hb, h⟩ <;> rw [h]
    · exact .quiet rfl rfl rfl
    · exact .drop hb (.inl ⟨off, v, rest, r, hp, ho, hg⟩) rfl rfl rfl
    · rcases storeReg_cases r v (dropInput s) with ⟨rfl, h⟩ | ⟨rfl, h⟩ | ⟨-, -, hdone, hwerr, heng, -⟩
      · rw [h]
        exact .acceptance off v rest hp (offset_of_ofOffset ho) (hb.resolve_right (by decide)) rfl rfl rfl
      · rw [h]
        exact .statusWrite off v rest hp (offset_of_ofOffset ho) rfl rfl rfl
      · exact .quiet heng hdone hwerr

theorem memory_write_event {sp : Space} {a v : Nat} {rest : List Input} (hp : s.pending = .wrm sp a v :: rest) :
    StatusEvent s (hostTurn (.wrm sp a v) (dropInput s)) := by
  cases hr : s.rst with
  | true =>
    rw [hostTurn_wrm_held (s := dropInput s) hr]
    exact .quiet rfl rfl rfl
  | false =>
    rw [hostTurn_wrm (s := dropInput s) hr]
    rcases memPortWrite_cases sp a v (dropInput s) with ⟨hb, h⟩ | ⟨-, -, h⟩ | ⟨-, -, h⟩ <;> rw [h]
    · exact .drop hb (.inr ⟨sp, a, v, rest, hp⟩) rfl rfl rfl
    · exact .quiet rfl rfl rfl
    · cases sp <;> exact .quiet rfl rfl rfl

/-- Every step is one of the events. -/
theorem step_event (hs : step s = .next t) : StatusEvent s t := by
  rcases step_cases hs with ⟨hp, -⟩ | ⟨rest, hp, -⟩ | ⟨i, rest, hp, -, rfl⟩
  · exact engineTurn_event (.inl hp) hs
  · exact engineTurn_event (.inr ⟨rest, hp⟩) hs
  · cases i with
    | wr off v => exact register_write_event hp
    | wrm sp a v => exact memory_write_event hp
    | rstOn => exact .reset rest hp rfl rfl rfl
    | rd | rdm | rstOff | engine => exact .quiet rfl rfl rfl

/-! ## The statements -/

theorem busy_congr (h : t.eng = s.eng) : t.busy = s.busy := by
  unfold State.busy
  rw [h]

/-- Settles O36: an acceptance is the one event that leaves BUSY = 1 after BUSY = 0; a completion and a reset are the only
ones that leave BUSY = 0 after BUSY = 1. -/
theorem busyChangesOnlyAtAcceptanceCompletionAndReset : Obligations.BusyChangesOnlyAtAcceptanceCompletionAndReset := by
  intro s t hs
  refine ⟨fun hb ht => ?_, fun hb ht => ?_, ?_, fun w hw => ?_, fun hh => ?_⟩
  · cases step_event hs with
    | acceptance off v rest hp ho hb heng => exact ⟨off, v, rest, hp, ho, heng⟩
    | quiet heng | statusWrite _ _ _ _ _ heng | drop _ _ heng => simp [busy_congr heng, hb] at ht
    | completion _ _ heng | reset _ _ heng => simp [(not_busy_iff t).mpr heng] at ht
  · cases step_event hs with
    | completion w hw _ hdone => exact .inr ⟨w, hw, hdone⟩
    | reset rest hp => exact .inl ⟨rest, hp⟩
    | quiet heng | statusWrite _ _ _ _ _ heng | drop _ _ heng => simp [busy_congr heng, hb] at ht
    | acceptance _ _ _ _ _ _ heng => simp [busy_of_eng heng] at ht
  · rintro hr hb ⟨off, v, rest, hp, ho⟩
    exact busy_of_eng (step_cmd_write hs hp hr hb ho).1
  · exact (not_busy_iff t).mpr (step_completion hs hw).1
  · obtain ⟨rest, hp⟩ := List.head?_eq_some_iff.mp hh
    rw [step_rstOn hs hp]
    rfl

/-- Settles O37: a completion is the one event that sets DONE; an acceptance, a reset and a STATUS write are the only ones
that clear it, the last where its bit 1 is set. -/
theorem doneChangesOnlyAtItsEvents : Obligations.DoneChangesOnlyAtItsEvents := by
  intro s t hs
  refine ⟨fun hd ht => ?_, fun hd ht => ?_, fun w hw => ?_, ?_, fun hh => ?_⟩
  · cases step_event hs with
    | completion w hw => exact ⟨w, hw⟩
    | quiet _ hdone | reset _ _ _ hdone | acceptance _ _ _ _ _ _ _ hdone | statusWrite _ _ _ _ _ _ hdone
    | drop _ _ _ hdone => simp [hdone, hd] at ht
  · cases step_event hs with
    | reset rest hp => exact .inl ⟨rest, hp⟩
    | acceptance off v rest hp ho hb => exact .inr ⟨off, v, rest, hp, .inl ⟨ho, hb⟩⟩
    | statusWrite off v rest hp ho _ hdone =>
      have hv : v.getLsbD 1 = true := by rwa [hdone, hd, Bool.true_and, Bool.not_eq_false'] at ht
      exact .inr ⟨off, v, rest, hp, .inr ⟨ho, hv⟩⟩
    | quiet _ hdone | completion _ _ _ hdone | drop _ _ _ hdone => simp [hdone, hd] at ht
  · exact (step_completion hs hw).2.1
  · rintro hr ⟨off, v, rest, hp, ⟨ho, hb⟩ | ⟨ho, hv⟩⟩
    · exact (step_cmd_write hs hp hr hb ho).2
    · rw [(step_status_write hs hp hr ho).1, hv, Bool.not_true, Bool.and_false]
  · obtain ⟨rest, hp⟩ := List.head?_eq_some_iff.mp hh
    rw [step_rstOn hs hp]
    rfl

/-- Settles O38: a dropped write is the one event that sets WERR; a reset and a STATUS write are the only ones that clear
it, the latter where its bit 8 is set. -/
theorem werrIsStickyAndSetByDroppedWrites : Obligations.WerrIsStickyAndSetByDroppedWrites := by
  intro s t hs
  refine ⟨fun hw ht => ?_, fun hw ht => ?_, step_dropped hs, ?_, fun hh => ?_⟩
  · cases step_event hs with
    | drop hb h => exact ⟨hb, h⟩
    | quiet _ _ hwerr | completion _ _ _ _ hwerr | reset _ _ _ _ hwerr | acceptance _ _ _ _ _ _ _ _ hwerr
    | statusWrite _ _ _ _ _ _ _ hwerr => simp [hwerr, hw] at ht
  · cases step_event hs with
    | reset rest hp => exact .inl ⟨rest, hp⟩
    | statusWrite off v rest hp ho _ _ hwerr =>
      have hv : v.getLsbD 8 = true := by rwa [hwerr, hw, Bool.true_and, Bool.not_eq_false'] at ht
      exact .inr ⟨off, v, rest, hp, ho, hv⟩
    | quiet _ _ hwerr | completion _ _ _ _ hwerr | acceptance _ _ _ _ _ _ _ _ hwerr | drop _ _ _ _ hwerr =>
      simp [hwerr, hw] at ht
  · rintro hr ⟨off, v, rest, hp, ho, hv⟩
    rw [(step_status_write hs hp hr ho).2, hv, Bool.not_true, Bool.and_false]
  · obtain ⟨rest, hp⟩ := List.head?_eq_some_iff.mp hh
    rw [step_rstOn hs hp]
    rfl

end Sys2Proof.Machine
end

section
/-! O39, O45 and O4: the reset values, and the life of a command between its acceptance and its completion. -/

namespace Sys2Proof.Machine

variable {s t : State}

/-! ## Reset -/

theorem resetRegisters_assertRst (s : State) : resetRegisters (assertRst s) = assertRst s := rfl

theorem resetRegisters_poweredOn (c : Config) : resetRegisters (State.poweredOn c) = State.poweredOn c := rfl

/-- Settles O39: both states hold their registers' reset values, so `readReg_reset` says what they read as. -/
theorem resetValuesOfTheRegisters : Obligations.ResetValuesOfTheRegisters := by
  refine ⟨fun s t hh hs => ?_, fun c => ⟨rfl, rfl, rfl, rfl, readReg_reset (resetRegisters_poweredOn c)⟩⟩
  obtain ⟨rest, hp⟩ := List.head?_eq_some_iff.mp hh
  rw [step_rstOn hs hp]
  exact ⟨rfl, rfl, rfl, assertRst_cfg (dropInput s), rfl, rfl, readReg_reset (resetRegisters_assertRst (dropInput s))⟩

/-! ## Transactions while a command runs -/

/-- What a host transaction made while a command runs can change: DONE, INTEN, WERR, the inputs to come and the log. -/
def State.differsByHost (s t : State) : Prop :=
  t = { s with done := t.done, doneIe := t.doneIe, werr := t.werr, pending := t.pending, log := t.log }

theorem State.differsByHost.rst_eq (h : s.differsByHost t) : t.rst = s.rst := by
  rw [h]

theorem State.differsByHost.eng_eq (h : s.differsByHost t) : t.eng = s.eng := by
  rw [h]

theorem State.differsByHost.trans {u : State} (h : s.differsByHost t) (h' : t.differsByHost u) : s.differsByHost u := by
  unfold State.differsByHost at *
  rw [h', h]

/-- The fields that a transaction leaves are all that a command reads (rules R42 and R78). -/
theorem plan_of_differsByHost (h : s.differsByHost t) (i : Instr) : plan i t = plan i s := by
  rw [h]
  exact plan_congr i rfl rfl rfl rfl rfl rfl rfl rfl rfl rfl

theorem hostTurn_transaction_busy {i : Input} (hi : i.isTransaction = true) (hb : s.busy = true) (hr : s.rst = false) :
    s.differsByHost (hostTurn i s) ∧ (hostTurn i s).pending = s.pending := by
  obtain ⟨⟨d, e, w, r, l, h⟩, -, hr'⟩ := hostTurn_busy (i := i) (by rintro rfl; cases hi) hb
  have hrst : r = s.rst := by rw [hr, ← hr' hr, h]
  rw [h, hrst]
  exact ⟨rfl, rfl⟩

/-- A completion sets DONE, so it differs by INTEN, WERR, the inputs to come and the log only. -/
theorem complete_of_differsByHost (h : s.differsByHost t) (r : Except ErrCode Held) :
    complete r t = { complete r s with
      doneIe := (complete r t).doneIe, werr := (complete r t).werr, pending := (complete r t).pending,
      log := (complete r t).log } := by
  rw [h]
  cases r <;> rfl

theorem completeWord_eq (w : Word) (s : State) :
    ∃ r, completeWord w s = .next (complete r s) ∧ ∀ t, s.differsByHost t → completeWord w t = .next (complete r t) := by
  unfold completeWord
  cases decode w with
  | ok i => exact ⟨plan i s, exec_eq i s, fun t h => by rw [← plan_of_differsByHost h i]; exact exec_eq i t⟩
  | error e => exact ⟨.error .illegalOp, rfl, fun t _ => rfl⟩

/-- Running the transactions, one step each, leaves the command as it was and the engine's turn next. -/
theorem run_transactions {ts : List Input} {n : Nat} (hr : s.rst = false) (hb : s.busy = true)
    (hts : ∀ i ∈ ts, i.isTransaction = true) (rest : List Input) (hp : s.pending = ts ++ rest) :
    ∃ t, s.differsByHost t ∧ t.pending = rest ∧
      Sys2Proof.core.run (ts.length + n) s = Sys2Proof.core.run n t := by
  induction ts generalizing s with
  | nil => exact ⟨s, rfl, hp, by simp⟩
  | cons i ts ih =>
    have hi : i.isTransaction = true := hts i (by simp)
    have hne : i ≠ .engine := by rintro rfl; cases hi
    obtain ⟨h1, hp1⟩ := hostTurn_transaction_busy (s := dropInput s) hi hb hr
    rw [dropInput_pending, hp] at hp1
    obtain ⟨t, h2, hpt, hrun⟩ := ih (s := hostTurn i (dropInput s)) (h1.rst_eq.trans hr) ((busy_congr h1.eng_eq).trans hb)
      (fun j hj => hts j (by simp [hj])) hp1
    refine ⟨t, State.differsByHost.trans (t := hostTurn i (dropInput s)) h1 h2, hpt, ?_⟩
    rw [← hrun, List.length_cons, Nat.add_right_comm]
    simp only [Host.Core.run]
    rw [show Sys2Proof.core.step s = _ from step_host hp hne]

theorem run_one (s : State) : Sys2Proof.core.run 1 s = step s := by
  simp only [Host.Core.run]
  cases h : Sys2Proof.core.step s <;> exact h.symm

theorem step_eq_completeWord {w : Word} (h : s.aboutToComplete w) : step s = completeWord w (dropInput s) := by
  obtain ⟨hr, he, hp⟩ := h
  rw [step_engine hp]
  exact engineTurn_busy (s := dropInput s) hr he

/-- Two busy blocks that differ by what the host did complete alike. -/
theorem completion_of_differsByHost {w : Word} {u u' : State} (h : s.differsByHost t) (hs : s.aboutToComplete w)
    (ht : t.aboutToComplete w) (hu : step s = .next u) (hu' : step t = .next u') :
    u' = { u with doneIe := u'.doneIe, werr := u'.werr, pending := u'.pending, log := u'.log } := by
  have hd : (dropInput s).differsByHost (dropInput t) := congrArg dropInput h
  obtain ⟨r, hw, hw'⟩ := completeWord_eq w (dropInput s)
  rw [step_eq_completeWord hs, hw] at hu
  rw [step_eq_completeWord ht, hw' _ hd] at hu'
  cases hu
  cases hu'
  exact complete_of_differsByHost hd r

/-- Settles O45: the transactions lead to a state whose command reads what it read before, so its completion is the same. -/
theorem transactionsWhileBusyDoNotAlterTheCommand : Obligations.TransactionsWhileBusyDoNotAlterTheCommand := by
  intro s t u w ts hr he hts ht hu
  obtain ⟨t', hd, hp, hrun⟩ := run_transactions (s := { s with pending := ts ++ [.engine] }) (n := 1) hr
    (busy_of_eng he) hts [.engine] rfl
  rw [hrun, run_one] at ht
  have hd' : State.differsByHost { s with pending := [.engine] } t' := hd
  exact completion_of_differsByHost hd' ⟨hr, he, .inr ⟨[], rfl⟩⟩
    ⟨hd.rst_eq.trans hr, hd.eng_eq.trans he, .inr ⟨[], hp⟩⟩ hu ht

/-! ## The engine's turn -/

theorem step_of_decode {w : Word} {i : Instr} (h : s.aboutToComplete w) (hd : decode w = .ok i) :
    step s = exec i (dropInput s) := by
  rw [step_eq_completeWord h, completeWord, hd]

/-- A table word of 32 bits is the command word it numbers. -/
theorem decode_of_tableWord {n : Nat} {i : Instr} (h : decodeTableWord 32 n = some i) (hn : n < 2 ^ 32) :
    decode (BitVec.ofNat 32 n) = .ok i := by
  rw [decodeTableWord, Nat.mod_eq_of_lt hn, if_pos hn] at h
  cases hd : decode (BitVec.ofNat 32 n) with
  | error e => simp [hd, Except.toOption] at h
  | ok j => simpa [hd, Except.toOption] using h

/-- Settles O4: `withFetchWord` makes the engine about to complete the word it is given. -/
theorem stepRunsTheDecodedCommand : Obligations.StepRunsTheDecodedCommand := by
  refine ⟨fun s w i => step_of_decode, fun s n i hd hn => ?_⟩
  rw [State.withFetchWord, Nat.mod_eq_of_lt hn]
  exact step_of_decode ⟨rfl, rfl, .inr ⟨_, rfl⟩⟩ (decode_of_tableWord hd hn)

end Sys2Proof.Machine
end

section
/-! O34 and O35: the memory ports on an idle and on a busy block (20_memory.md rules R61 and R82), and the agent that may
change memory (rule R78). -/

namespace Sys2Proof.Machine

variable {s t : State}

/-! ## One cell -/

/-- What a memory's cells hold after a write of one of them, where `unwritten` gives the cells never written (rule R62). -/
theorem Memory.cell_write {α : Type} (m : Memory α) (a : Nat) (v : α) (unwritten : Nat → α) :
    (Memory.find (Memory.write m a v) a).getD (unwritten a) = v ∧
      ∀ b, b ≠ a → (Memory.find (Memory.write m a v) b).getD (unwritten b) = (Memory.find m b).getD (unwritten b) :=
  ⟨by rw [Memory.find_write_same, Option.getD_some], fun _ hb => by rw [Memory.find_write_other m v hb]⟩

theorem memPortRead_of_outside {sp : Space} {a : Nat} (h : s.cfg.size sp ≤ a) : memPortRead sp a s = 0 := by
  rw [memPortRead, if_pos h, ite_self]

theorem memPortWrite_of_outside {sp : Space} {a : Nat} (hb : s.busy = false) (h : s.cfg.size sp ≤ a) (v : Nat) :
    memPortWrite sp a v s = s := by
  rw [memPortWrite, if_neg (by simp [hb]), if_pos h]

/-! ## The ports' transactions -/

theorem readsCell_outside {sp : Space} {a : Nat} (h : s.cfg.size sp ≤ a) : s.readsCell sp a 0 :=
  readsCell_of fun rest => memPortRead_of_outside (s := { s with pending := rest }) h

theorem readsCell_busy (hb : s.busy = true) (sp : Space) (a : Nat) : s.readsCell sp a 0 :=
  readsCell_of fun rest => memPortRead_of_busy (s := { s with pending := rest }) hb sp a

theorem readsCell_idle {sp : Space} {a : Nat} (hb : s.busy = false) (h : a < s.cfg.size sp) :
    s.readsCell sp a (cellNat sp a s) := by
  refine readsCell_of fun rest => ?_
  rw [memPortRead_of_idle (s := { s with pending := rest }) hb h]
  cases sp <;> rfl

theorem writesCell_outside {sp : Space} {a : Nat} (hr : s.rst = false) (hb : s.busy = false) (h : s.cfg.size sp ≤ a)
    (v : Nat) : s.writesCell sp a v s :=
  writesCell_of hr fun rest => memPortWrite_of_outside (s := { s with pending := rest }) hb h v

theorem writesCell_busy (hr : s.rst = false) (hb : s.busy = true) (sp : Space) (a v : Nat) :
    s.writesCell sp a v { s with werr := true } :=
  writesCell_of hr fun rest => memPortWrite_of_busy (s := { s with pending := rest }) hb sp a v

theorem writesCell_idle {sp : Space} {a : Nat} (hr : s.rst = false) (hb : s.busy = false) (h : a < s.cfg.size sp)
    (v : Nat) : s.writesCell sp a v (storeCell sp a v s) := by
  refine writesCell_of hr fun rest => ?_
  rw [memPortWrite_of_idle (s := { s with pending := rest }) hb h]
  cases sp <;> rfl

/-! ## What an idle block's write stores -/

theorem writesCell_pix {a : Nat} (hr : s.rst = false) (hb : s.busy = false) (h : a < s.cfg.pixSize) (v : Nat) :
    ∃ m, s.writesCell .pix a v { s with pix := m } ∧
      ({ s with pix := m }.pixAt a).toNat = v % 256 ∧ ∀ b, b ≠ a → { s with pix := m }.pixAt b = s.pixAt b := by
  obtain ⟨hsame, hother⟩ := Memory.cell_write s.pix a (BitVec.ofNat 8 v) (Config.powerOnByte .pix)
  exact ⟨_, writesCell_idle (sp := .pix) hr hb h v, (congrArg BitVec.toNat hsame).trans (BitVec.toNat_ofNat v 8), hother⟩

theorem writesCell_pay {a : Nat} (hr : s.rst = false) (hb : s.busy = false) (h : a < s.cfg.paySize) (v : Nat) :
    ∃ m, s.writesCell .pay a v { s with pay := m } ∧
      ({ s with pay := m }.payAt a).toNat = v % 256 ∧ ∀ b, b ≠ a → { s with pay := m }.payAt b = s.payAt b := by
  obtain ⟨hsame, hother⟩ := Memory.cell_write s.pay a (BitVec.ofNat 8 v) (Config.powerOnByte .pay)
  exact ⟨_, writesCell_idle (sp := .pay) hr hb h v, (congrArg BitVec.toNat hsame).trans (BitVec.toNat_ofNat v 8), hother⟩

theorem writesCell_bit {a : Nat} (hr : s.rst = false) (hb : s.busy = false) (h : a < s.cfg.bitSize) (v : Nat) :
    ∃ m, s.writesCell .bit a v { s with bit := m } ∧
      ({ s with bit := m }.bitAt a).toNat = v % 2 ∧ ∀ b, b ≠ a → { s with bit := m }.bitAt b = s.bitAt b := by
  obtain ⟨hsame, hother⟩ := Memory.cell_write s.bit a (v.testBit 0) Config.powerOnBit
  have hbit : (v.testBit 0).toNat = v % 2 := by rw [Nat.toNat_testBit, Nat.pow_zero, Nat.div_one]
  exact ⟨_, writesCell_idle (sp := .bit) hr hb h v, (congrArg Bool.toNat hsame).trans hbit, hother⟩

/-- Settles O34: each clause is one answer of the ports, by whether a command runs, `rst` is held and the cell exists. -/
theorem memoryPortsReadAndWriteCells : Obligations.MemoryPortsReadAndWriteCells := fun _ a v =>
  ⟨fun hb => ⟨fun _ => readsCell_outside, readsCell_idle (sp := .pix) hb, readsCell_idle (sp := .pay) hb,
      readsCell_idle (sp := .bit) hb⟩,
    fun hb sp => readsCell_busy hb sp a,
    fun hr hb => ⟨fun _ h => writesCell_outside hr hb h v, fun h => writesCell_pix hr hb h v,
      fun h => writesCell_pay hr hb h v, fun h => writesCell_bit hr hb h v⟩,
    fun hr hb sp => writesCell_busy hr hb sp a v,
    fun hr sp => writesCell_held hr sp a v⟩

/-! ## Who changes memory -/

/-- A transaction made while a command runs reaches neither a memory nor a result register, `rst` held or not. -/
theorem hostTurn_busy_memory {i : Input} (hi : i.isTransaction = true) (hb : s.busy = true) (ht : t = hostTurn i s) :
    t.pix = s.pix ∧ t.pay = s.pay ∧ t.bit = s.bit ∧ t.outcnt = s.outcnt ∧ t.hdr = s.hdr ∧ t.lsbOut = s.lsbOut := by
  obtain ⟨⟨d, e, w, r, l, h⟩, -⟩ := hostTurn_busy (i := i) (by rintro rfl; cases hi) hb
  rw [ht, h]
  exact ⟨rfl, rfl, rfl, rfl, rfl, rfl⟩

/-- The engine's turn of an idle block takes its input and does nothing else. -/
theorem step_engine_idle (hb : s.busy = false) (hp : s.pending = [] ∨ ∃ rest, s.pending = .engine :: rest) :
    step s = .next (dropInput s) := by
  rw [step_engine hp]
  exact engineTurn_idle (s := dropInput s) ((not_busy_iff s).mp hb)

/-- Settles O35: the host's transactions of a busy block, and the engine's turn of an idle one. -/
theorem oneAgentOwnsMemoryAtATime : Obligations.OneAgentOwnsMemoryAtATime := by
  refine fun s t hs => ⟨?_, fun hb hp => ?_⟩
  · rintro hb ⟨i, rest, hp, hi⟩
    exact hostTurn_busy_memory (s := dropInput s) hi hb (host_next hp (by rintro rfl; cases hi) hs)
  · rw [step_engine_idle hb hp] at hs
    cases hs
    rfl

end Sys2Proof.Machine
end

section
/-! O1 to O3: a word's two fields determine it, so the commands' words are those of the opcode map and no other
(30_encoding.md rules R90 to R92). -/

namespace Sys2Proof

variable {w : Word} {i : Instr}

/-! ## The fields of a word -/

theorem opField_toNat (w : Word) : (opField w).toNat = w.toNat % 16 := by
  rw [opField, BitVec.extractLsb'_toNat, Nat.shiftRight_zero]

theorem rsvdField_toNat (w : Word) : (rsvdField w).toNat = w.toNat / 16 := by
  have := w.isLt
  rw [rsvdField, BitVec.extractLsb'_toNat, Nat.shiftRight_eq_div_pow]
  omega

/-- RSVD and OP are all of a word's bits. -/
theorem word_eq_of_fields {v : Word} (hr : rsvdField v = rsvdField w) (ho : opField v = opField w) : v = w := by
  have hr := congrArg BitVec.toNat hr
  have ho := congrArg BitVec.toNat ho
  rw [rsvdField_toNat, rsvdField_toNat] at hr
  rw [opField_toNat, opField_toNat] at ho
  exact BitVec.eq_of_toNat_eq (by omega)

theorem encode_fields : ∀ i : Instr, Laws.Encoding.Statement i
  | .bytes2bits => Laws.Encoding.bytes2bits
  | .bits2bytes => Laws.Encoding.bits2bytes
  | .setlsb => Laws.Encoding.setlsb
  | .frame => Laws.Encoding.frame
  | .unframe => Laws.Encoding.unframe
  | .embed => Laws.Encoding.embed
  | .extract => Laws.Encoding.extract

theorem eq_encode_iff : w = encode i ↔ rsvdField w = 0 ∧ opField w = opcode i := by
  obtain ⟨hr, ho, -⟩ := encode_fields i
  constructor
  · rintro rfl
    exact ⟨hr, ho⟩
  · rintro ⟨hr', ho'⟩
    exact word_eq_of_fields (hr'.trans hr.symm) (ho'.trans ho.symm)

/-! ## The decoder -/

theorem decode_of_rsvd (h : rsvdField w ≠ 0) : decode w = .error .rsvdNonzero := if_pos h

/-- The OP column of the opcode map holds every number from 1 to 7. -/
theorem exists_opcode : ∀ op : BitVec 4, op ≠ 0 → op.toNat < 8 →
    ∃ i ∈ [Instr.bytes2bits, .bits2bytes, .setlsb, .frame, .unframe, .embed, .extract], op = opcode i := by decide

/-- A word selects a command by its two fields. -/
theorem decode_ok_iff : decode w = .ok i ↔ rsvdField w = 0 ∧ opField w = opcode i := by
  by_cases hr : rsvdField w = 0
  · simp only [decode, hr, ne_eq, not_true_eq_false, if_false, true_and]
    generalize opField w = op
    revert op
    cases i <;> decide
  · exact iff_of_false (by simp [decode_of_rsvd hr]) fun h => hr h.1

theorem decode_error_iff_forall_ne : (∃ e, decode w = .error e) ↔ ∀ i, decode w ≠ .ok i := by
  cases decode w <;> simp

/-- The two fields of an illegal word (rule R92). -/
theorem decode_error_iff_fields :
    (∃ e, decode w = .error e) ↔ rsvdField w ≠ 0 ∨ opField w = 0 ∨ 8 ≤ (opField w).toNat := by
  simp only [decode_error_iff_forall_ne, ne_eq, decode_ok_iff]
  constructor
  · intro hno
    by_contra! hlegal
    obtain ⟨hr, h0, h8⟩ := hlegal
    obtain ⟨i, -, hi⟩ := exists_opcode (opField w) h0 h8
    exact hno i ⟨hr, hi⟩
  · rintro hill i ⟨hr, ho⟩
    obtain ⟨-, -, h1, h7⟩ := encode_fields i
    rcases hill with h | h | h
    · exact h hr
    · simp [← ho, h] at h1
    · rw [ho] at h
      omega

/-- The same, by the word as a number. -/
theorem decode_error_iff :
    (∃ e, decode w = .error e) ↔ w.toNat / 16 ≠ 0 ∨ w.toNat % 16 = 0 ∨ 8 ≤ w.toNat % 16 := by
  rw [decode_error_iff_fields, ne_eq, ← BitVec.toNat_inj, ← BitVec.toNat_inj, rsvdField_toNat, opField_toNat]
  rfl

/-! ## The statements -/

/-- Settles O3: a command is decided by the fields, and so is its word. -/
theorem wordsThatDecodeAreExactlyTheOpcodeMap : Obligations.WordsThatDecodeAreExactlyTheOpcodeMap :=
  fun _ => ⟨fun _ => decode_ok_iff.trans eq_encode_iff.symm, decode_error_iff⟩

/-- Settles O2: a command's word is the one that selects it. -/
theorem decodeInvertsEncode : Obligations.DecodeInvertsEncode :=
  fun i _ => (wordsThatDecodeAreExactlyTheOpcodeMap (encode i)).1 i |>.mpr rfl

/-- Settles O1: twelve words, each decoded. -/
theorem opcodeTableWordsDecode : Obligations.OpcodeTableWordsDecode := by
  unfold Obligations.OpcodeTableWordsDecode
  decide

end Sys2Proof
end

section
/-! O5, O6 and O32: a CMD write on an idle and on a busy block (30_encoding.md rules R92, R94 and R95, 10_state.md rule
R42). -/

namespace Sys2Proof.Machine

variable {s t : State} {off : BitVec 8} {v w : Word} {r : Reg}

/-! ## Acceptance and completion -/

theorem writes_cmd_idle (hr : s.rst = false) (hb : s.busy = false) (ho : off &&& 0xFC#8 = 0x04#8) (w : Word) :
    s.writes off w { s with done := false, err := .ok, eng := .busy w } :=
  writes_register (r := .cmd) hr (.inl hb) ho fun _ => rfl

/-- An enabled completion step completes, whatever the word. -/
theorem step_completes (h : s.aboutToComplete w) : ∃ r, step s = .next (complete r (dropInput s)) := by
  obtain ⟨r, hw, -⟩ := completeWord_eq w (dropInput s)
  exact ⟨r, (step_eq_completeWord h).trans hw⟩

/-- Settles O5: the word accepted is about to complete once no other input is to come. -/
theorem cmdWriteWhileIdleIsAccepted : Obligations.CmdWriteWhileIdleIsAccepted := by
  intro s off w hr hb ho
  obtain ⟨r, hs⟩ := step_completes (s := { s with done := false, err := .ok, eng := .busy w, pending := [] })
    ⟨hr, rfl, .inl rfl⟩
  exact ⟨writes_cmd_idle hr hb ho w, _, hs, (complete_status r _).2, (complete_status r _).1⟩

/-- The completion of a word that selects no command (rule R92). -/
theorem step_of_decode_error {e : DecodeError} (h : s.aboutToComplete w) (hd : decode w = .error e) :
    step s = .next ((dropInput s).failed .illegalOp) := by
  rw [step_eq_completeWord h, completeWord, hd]
  rfl

/-- Settles O6: an illegal word is accepted as any word is, and the decoder refuses it at its completion. -/
theorem illegalWordCompletesWithIllegalOp : Obligations.IllegalWordCompletesWithIllegalOp := by
  intro w hw
  obtain ⟨e, hd⟩ := decode_error_iff.mpr hw
  exact ⟨fun s off hr hb ho => writes_cmd_idle hr hb ho w, fun s h => step_of_decode_error h hd, rfl⟩

/-! ## Guarded writes -/

/-- A write of a guarded register while a command runs is dropped (rule R42). -/
theorem writes_guarded_busy (hr : s.rst = false) (hb : s.busy = true) (ho : off &&& 0xFC#8 = r.offset)
    (hg : r.guarded = true) (v : Word) : s.writes off v { s with werr := true } := by
  refine writes_of hr fun rest => ?_
  rw [portWrite_of (ofOffset_of_offset ho), writeReg_of_guarded (s := { s with pending := rest }) hb hg]
  rfl

/-- The operand registers (rule R93) of two states are the same. -/
def State.sameOperands (s t : State) : Prop :=
  t.width = s.width ∧ t.height = s.height ∧ t.channels = s.channels ∧ t.len = s.len ∧ t.bitcnt = s.bitcnt ∧
    t.lsbIn = s.lsbIn

theorem hostTurn_busy_operands {i : Input} (hi : i ≠ .rstOn) (hb : s.busy = true) :
    s.sameOperands (hostTurn i s) ∧ (hostTurn i s).eng = s.eng := by
  obtain ⟨⟨d, e, w, r, l, h⟩, -⟩ := hostTurn_busy hi hb
  rw [h]
  exact ⟨⟨rfl, rfl, rfl, rfl, rfl, rfl⟩, rfl⟩

/-- The engine's turn leaves the operands, and the word held where it does not complete it. -/
theorem engineTurn_operands (h : engineTurn s = .next t) : s.sameOperands t ∧ (t.busy = true → t.eng = s.eng) := by
  have completion (r : Except ErrCode Held) :
      s.sameOperands (complete r s) ∧ ((complete r s).busy = true → (complete r s).eng = s.eng) := by
    refine ⟨?_, fun hb => ?_⟩
    · rw [complete_frame]
      exact ⟨rfl, rfl, rfl, rfl, rfl, rfl⟩
    · simp [(not_busy_iff _).mpr (complete_status r s).1] at hb
  rcases engineTurn_cases h with ⟨-, rfl⟩ | ⟨w, i, -, -, -, rfl⟩ | ⟨w, e, -, -, -, rfl⟩
  · exact ⟨⟨rfl, rfl, rfl, rfl, rfl, rfl⟩, fun _ => rfl⟩
  · exact completion (plan i s)
  · exact completion (.error .illegalOp)

theorem step_busy_operands (hs : step s = .next t) (hb : s.busy = true) (hp : s.pending.head? ≠ some .rstOn) :
    s.sameOperands t ∧ (t.busy = true → t.eng = s.eng) := by
  rcases step_cases hs with ⟨-, h⟩ | ⟨rest, -, h⟩ | ⟨i, rest, hi, -, rfl⟩
  · exact engineTurn_operands (s := dropInput s) h
  · exact engineTurn_operands (s := dropInput s) h
  · obtain ⟨hop, heng⟩ := hostTurn_busy_operands (s := dropInput s) (i := i) (by rintro rfl; simp [hi] at hp) hb
    exact ⟨hop, fun _ => heng⟩

/-- Settles O32: the nine offsets are those of the guarded registers. -/
theorem guardedWritesAreDroppedWhileBusy : Obligations.GuardedWritesAreDroppedWhileBusy := by
  refine ⟨fun s off v hr hb ho => ?_, fun s t hs hb hp => ?_⟩
  · obtain ⟨r, hoff, hg⟩ : ∃ r : Reg, off &&& 0xFC#8 = r.offset ∧ r.guarded = true := by
      rcases ho with h | h | h | h | h | h | h | h | h
      exacts [⟨.cmd, h, rfl⟩, ⟨.width, h, rfl⟩, ⟨.height, h, rfl⟩, ⟨.channels, h, rfl⟩, ⟨.lenLo, h, rfl⟩,
        ⟨.lenHi, h, rfl⟩, ⟨.bitcntLo, h, rfl⟩, ⟨.bitcntHi, h, rfl⟩, ⟨.lsbIn, h, rfl⟩]
    exact writes_guarded_busy hr hb hoff hg v
  · obtain ⟨⟨hw, hh, hc, hl, hn, hi⟩, heng⟩ := step_busy_operands hs hb hp
    exact ⟨hw, hh, hc, hl, hn, hi, heng⟩

end Sys2Proof.Machine
end

section
/-! O10 and O26: what a command writes and what it reads, by its plan (30_encoding.md rules R91 and R93). -/

namespace Sys2Proof.Machine

variable {i : Instr} {s s' : State} {h : Held}

/-! ## What a command writes -/

/-- Settles O10: a completion's held writes name the map's spaces and result registers only, and an error has none. -/
theorem commandWritesOnlyWhatTheMapNames : Obligations.CommandWritesOnlyWhatTheMapNames := by
  refine fun i s => ⟨_, exec_eq i s, complete_frame _ s, ?_⟩
  cases hp : plan i s with
  | error e => exact ⟨fun _ => rfl, fun _ _ _ => rfl, fun _ _ => rfl, fun _ => rfl, fun _ => rfl, fun _ => rfl⟩
  | ok h =>
    obtain ⟨hpix, hpay, hbit, hout, hhdr, hlsb⟩ := plan_ok_writes hp
    simp only [complete_ok, completeOk_pix, completeOk_pay, completeOk_bit, completeOk_outcnt, completeOk_hdr,
      completeOk_lsbOut]
    refine ⟨fun hi => ?_, fun h1 h2 h3 => ?_, fun h1 h2 => ?_, fun hi => ?_, fun hi => ?_, fun hi => ?_⟩
    · rw [hpix hi, Memory.writeAll_nil]
    · rw [hpay h1 h2 h3, Memory.writeAll_nil]
    · rw [hbit h1 h2, Memory.writeAll_nil]
    · rw [hout hi, Option.getD_none]
    · rw [hhdr hi, Option.getD_none]
    · rw [hlsb hi, Option.getD_none]

/-! ## What a command reads -/

/-- The operand and memory columns of the opcode map (rule R91): `s'` agrees with `s` on all that command `i` reads. -/
structure AgreeOnOperands (i : Instr) (s s' : State) : Prop where
  cfg : s'.cfg = s.cfg
  payload : i = .bytes2bits ∨ i = .frame ∨ i = .embed → s'.len = s.len ∧ ∀ a, s'.payAt a = s.payAt a
  bits : i = .bits2bytes ∨ i = .unframe → s'.bitcnt = s.bitcnt ∧ ∀ a, s'.bitAt a = s.bitAt a
  lsb : i = .setlsb → s'.lsbIn = s.lsbIn
  grid : i = .embed ∨ i = .extract →
    s'.width = s.width ∧ s'.height = s.height ∧ s'.channels = s.channels ∧ ∀ a, s'.pixAt a = s.pixAt a

theorem distribute_congr_pixAt (hc : s'.chan = s.chan) (hp : ∀ a, s'.pixAt a = s.pixAt a) (k : Nat) (bits : Bits) :
    distribute s' k bits = distribute s k bits := by
  induction bits generalizing k with
  | nil => rfl
  | cons b bs ih => simp only [distribute, hc, hp, ih]

/-- The grid's registers decide its slots, its capacity and the geometry check. -/
theorem grid_congr (hc : s'.cfg = s.cfg) (hw : s'.width = s.width) (hh : s'.height = s.height)
    (hch : s'.channels = s.channels) :
    s'.chan = s.chan ∧ capacity s' = capacity s ∧ geometryOk s' = geometryOk s := by
  have hchan : s'.chan = s.chan := congrArg BitVec.toNat hch
  have hgw : s'.gridW = s.gridW := congrArg BitVec.toNat hw
  have hgh : s'.gridH = s.gridH := congrArg BitVec.toNat hh
  exact ⟨hchan, by simp only [capacity, hgw, hgh], by simp only [geometryOk, hchan, hgw, hgh, hc]⟩

/-- A plan is decided by what the opcode map says its command reads. -/
theorem plan_of_agree (ha : AgreeOnOperands i s s') : plan i s' = plan i s := by
  obtain ⟨hc, hpay, hbit, hlsb, hgrid⟩ := ha
  have len (h : s'.len = s.len) : s'.lenNat = s.lenNat := congrArg BitVec.toNat h
  have bitcnt (h : s'.bitcnt = s.bitcnt) : s'.bitcntNat = s.bitcntNat := congrArg BitVec.toNat h
  cases i with
  | bytes2bits =>
    obtain ⟨hl, hp⟩ := hpay (by simp)
    simp only [plan, planBytes2bits, hc, len hl, funext hp]
  | bits2bytes =>
    obtain ⟨hn, hb⟩ := hbit (by simp)
    simp only [plan, planBits2bytes, hc, bitcnt hn, funext hb]
  | setlsb => simp only [plan, planSetlsb, State.lsbValue, State.lsbBit, hlsb rfl]
  | frame =>
    obtain ⟨hl, hp⟩ := hpay (by simp)
    simp only [plan, planFrame, hc, len hl, funext hp]
  | unframe =>
    obtain ⟨hn, hb⟩ := hbit (by simp)
    simp only [plan, planUnframe, hc, bitcnt hn, funext hb]
  | embed =>
    obtain ⟨hl, hp⟩ := hpay (by simp)
    obtain ⟨hw, hh, hch, hx⟩ := hgrid (by simp)
    obtain ⟨hchan, hcap, hg⟩ := grid_congr hc hw hh hch
    simp only [plan, planEmbed, hc, len hl, funext hp, hcap, hg, distribute_congr_pixAt hchan hx]
  | extract =>
    obtain ⟨hw, hh, hch, hx⟩ := hgrid (by simp)
    obtain ⟨hchan, hcap, hg⟩ := grid_congr hc hw hh hch
    simp only [plan, planExtract, collect, hc, hcap, hg, hchan, hx]

/-! ## What a completion leaves does not depend on what was there before -/

/-- A consecutive write from address 0 reaches every cell below its length; OUTCNT, which is that length reduced to 64
bits, is no larger. -/
theorem isSome_find_cellsFrom {α : Type} {vs : List α} {n : Nat} (hn : vs.length = n) :
    ∀ a < (BitVec.ofNat 64 n).toNat, (Memory.find (cellsFrom 0 vs) a).isSome := by
  intro a ha
  rw [BitVec.toNat_ofNat] at ha
  have : n % 2 ^ 64 ≤ n := Nat.mod_le n (2 ^ 64)
  rw [find_cellsFrom_zero, List.getElem?_eq_getElem (by omega)]
  rfl

/-- The result registers that the opcode map names are held, and so is every cell below the new OUTCNT of the space
written. -/
theorem plan_ok_results (hp : plan i s = .ok h) :
    (i ≠ .setlsb → h.outcnt.isSome) ∧
    (i = .frame ∨ i = .unframe ∨ i = .embed ∨ i = .extract → h.hdr.isSome) ∧
    (i = .setlsb → h.lsbOut.isSome) ∧
    (i = .bytes2bits ∨ i = .frame → ∀ a < (h.outcnt.getD s.outcnt).toNat, (Memory.find h.bit a).isSome) ∧
    (i = .bits2bytes ∨ i = .unframe ∨ i = .extract →
      ∀ a < (h.outcnt.getD s.outcnt).toNat, (Memory.find h.pay a).isSome) := by
  rcases plan_ok_cases hp with ⟨rfl, -, -, rfl⟩ | ⟨rfl, -, h8, -, rfl⟩ | ⟨rfl, rfl⟩ | ⟨rfl, -, -, -, rfl⟩ |
    ⟨rfl, -, -, -, -, rfl⟩ | ⟨bits, hi, hl, -, rfl⟩
  · refine ⟨by simp, by simp, by simp, fun _ => isSome_find_cellsFrom ?_, by simp⟩
    rw [length_bytesToBits, length_memRead]
  · refine ⟨by simp, by simp, by simp, by simp, fun _ => isSome_find_cellsFrom ?_⟩
    rw [length_packBytes _ (by rwa [length_memRead]), length_memRead]
  · simp
  · exact ⟨by simp, by simp, by simp, fun _ => isSome_find_cellsFrom (length_framedBits s), by simp⟩
  · simp
  · have hcells := isSome_find_cellsFrom (length_payload hl)
    rcases hi with ⟨rfl, -⟩ | ⟨rfl, -⟩ <;> dsimp only [Option.getD] <;>
      exact ⟨by simp, by simp, by simp, by simp, fun _ => hcells⟩

theorem getD_eq_of_isSome {α : Type} {o : Option α} (ho : o.isSome) (a b : α) : o.getD a = o.getD b := by
  obtain ⟨v, rfl⟩ := Option.isSome_iff_exists.mp ho
  rfl

/-- Settles O26: the two states have one plan; an error is the same in both, and the held writes give the same results. -/
theorem commandReadsOnlyItsOperands : Obligations.CommandReadsOnlyItsOperands := by
  intro i s s' t t' hc hpay hbit hlsb hgrid ht ht'
  have hplan : plan i s' = plan i s := plan_of_agree ⟨hc, hpay, hbit, hlsb, hgrid⟩
  rcases exec_cases ht with ⟨h, hp, rfl⟩ | ⟨e, hp, rfl⟩
  · rw [exec_of_ok (hplan.trans hp)] at ht'
    cases ht'
    obtain ⟨hout, hhdr, hlsbOut, hbits, hbytes⟩ := plan_ok_results hp
    refine ⟨rfl, fun _ => ⟨fun hi => getD_eq_of_isSome (hout hi) _ _, fun hi => getD_eq_of_isSome (hhdr hi) _ _,
      fun hi => getD_eq_of_isSome (hlsbOut hi) _ _, fun hi a ha => ?_, fun hi a ha => ?_, fun hi a => ?_⟩⟩
    · rw [bitAt_completeOk, bitAt_completeOk]
      exact getD_eq_of_isSome (hbits hi a ha) _ _
    · rw [payAt_completeOk, payAt_completeOk]
      exact getD_eq_of_isSome (hbytes hi a ha) _ _
    · obtain ⟨-, -, -, hpix⟩ := hgrid (.inl hi)
      rw [pixAt_completeOk, pixAt_completeOk, hpix a]
  · rw [exec_of_error (hplan.trans hp)] at ht'
    cases ht'
    exact ⟨rfl, fun he => absurd (hp.trans (congrArg _ he)) (plan_ne_error_ok i s)⟩

end Sys2Proof.Machine
end

section
/-! O46 and O47: the host's pseudo-instructions (30_encoding.md rules R98 to R101), run one transaction at a time. -/

namespace Sys2Proof.Machine

variable {s t u : State} {off : BitVec 8} {v w : Word} {r : Reg} {rest : List Input}

/-! ## Runs of transactions -/

theorem run_succ (h : step s = .next t) (n : Nat) : Sys2Proof.core.run (n + 1) s = Sys2Proof.core.run n t := by
  simp only [Host.Core.run]
  rw [show Sys2Proof.core.step s = _ from h]

theorem run_two (h1 : step s = .next t) (h2 : step t = .next u) : Sys2Proof.core.run 2 s = .next u :=
  (run_succ h1 1).trans ((run_one t).trans h2)

theorem step_of_reads {n : Nat} (h : s.reads off n) (hp : s.pending = .rd off :: rest) :
    step s = .next { s with pending := rest, log := ⟨.reg, .r, off.toNat, n⟩ :: s.log } := by
  have hs := h rest
  rwa [← hp] at hs

theorem step_of_writes (h : s.writes off v t) (hp : s.pending = .wr off v :: rest) :
    step s = .next { t with pending := rest, log := ⟨.reg, .w, off.toNat, v.toNat⟩ :: s.log } := by
  have hs := h rest
  rwa [← hp] at hs

theorem step_of_writesCell {sp : Space} {a n : Nat} (h : s.writesCell sp a n t) (hp : s.pending = .wrm sp a n :: rest) :
    step s = .next { t with pending := rest, log := ⟨.mem sp, .w, a, n⟩ :: s.log } := by
  have hs := h rest
  rwa [← hp] at hs

/-- The map's offsets are whole words, so a register is found at its own. -/
theorem offset_and (r : Reg) : r.offset &&& 0xFC#8 = r.offset := by cases r <;> rfl

/-- `RD <reg>` (rule R98). -/
theorem step_hostRD (hr : s.rst = false) (hp : s.pending = .rd r.offset :: rest) :
    step s = .next { s with
      pending := rest, log := ⟨.reg, .r, r.offset.toNat, (readReg s r).toNat⟩ :: s.log } :=
  step_of_reads (reads_register hr (offset_and r) rfl) hp

/-- `WR <reg>, <v>` in a block that runs no command (rule R98). -/
theorem step_hostWR (hr : s.rst = false) (hb : s.busy = false) (hp : s.pending = .wr r.offset v :: rest) :
    step s = .next { storeReg v s r with
      pending := rest, log := ⟨.reg, .w, r.offset.toNat, v.toNat⟩ :: s.log } :=
  step_of_writes (writes_register hr (.inl hb) (offset_and r) fun _ => by cases r <;> rfl) hp

/-! ## WAIT -/

theorem statusWord_busy (s : State) : (statusWord s).toNat % 2 = s.busy.toNat := by
  have := Bool.toNat_le s.busy
  rw [statusWord_toNat]
  omega

/-- The fields of STATUS once a command is complete (10_state.md rules R26 to R29). -/
theorem statusWord_complete (hb : s.busy = false) (hd : s.done = true) :
    (statusWord s).toNat % 4 = 2 ∧ (statusWord s).toNat / 16 % 16 = s.err.code.toNat ∧
      (statusWord s).toNat / 256 % 2 = s.werr.toNat := by
  have hw := Bool.toNat_le s.werr
  have he := s.err.code.isLt
  rw [statusWord_toNat, hb, hd, Bool.toNat_false, Bool.toNat_true]
  omega

/-- The block after `k` polls of STATUS, with `rest` to come: a read changes the log only, so each reads the same. -/
def State.polled (s : State) (k : Nat) (rest : List Input) : State :=
  { s with pending := rest, log := List.replicate k ⟨.reg, .r, 0x08, (statusWord s).toNat⟩ ++ s.log }

theorem polled_polled_one (s : State) (k : Nat) (rest rest' : List Input) :
    (s.polled 1 rest').polled k rest = s.polled (k + 1) rest := by
  unfold State.polled
  rw [List.replicate_succ' (n := k), List.append_assoc]
  rfl

theorem run_polls (hr : s.rst = false) {k : Nat} (hp : s.pending = List.replicate k (.rd 0x08) ++ rest) (n : Nat) :
    Sys2Proof.core.run (k + n) s = Sys2Proof.core.run n (s.polled k rest) := by
  induction k generalizing s with
  | zero =>
    rw [List.replicate_zero, List.nil_append] at hp
    rw [Nat.zero_add, State.polled, List.replicate_zero, List.nil_append, ← hp]
  | succ k ih =>
    rw [List.replicate_succ, List.cons_append] at hp
    have hs : step s = .next (s.polled 1 (List.replicate k (.rd 0x08) ++ rest)) := step_hostRD (r := .status) hr hp
    rw [Nat.add_right_comm, run_succ hs, ih (s := s.polled 1 _) hr rfl, polled_polled_one]

/-- The engine's turn and the read after it, which ends the loop (rule R100). -/
theorem run_last_poll (h : s.aboutToComplete w) (hp : s.pending = [.engine, .rd 0x08]) :
    ∃ t, Sys2Proof.core.run 2 s = .next t ∧ t.busy = false ∧ t.done = true ∧ t.pending = [] ∧
      t.log = ⟨.reg, .r, 0x08, (statusWord t).toNat⟩ :: s.log := by
  obtain ⟨c, hs⟩ := step_completes h
  have hframe := complete_frame c (dropInput s)
  obtain ⟨heng, hdone⟩ := complete_status c (dropInput s)
  generalize complete c (dropInput s) = u at hs hframe heng hdone
  have hpu : u.pending = [.rd 0x08] := by rw [hframe, dropInput_pending, hp]; rfl
  have hru : u.rst = false := by rw [hframe]; exact h.1
  have hlog : u.log = s.log := by rw [hframe]; rfl
  refine ⟨u.polled 1 [], run_two hs (step_hostRD (r := .status) hru hpu), (not_busy_iff _).mpr heng, hdone, rfl, ?_⟩
  rw [← hlog]
  rfl

/-- Settles O46: the polls leave the command about to complete, and the last read follows its completion. -/
theorem waitEndsWithTheCommandComplete : Obligations.WaitEndsWithTheCommandComplete := by
  intro s w k hr he hp
  obtain ⟨t, hrun, hb, hd, hpend, hlog⟩ := run_last_poll (s := s.polled k [.engine, .rd 0x08]) (w := w)
    ⟨hr, he, .inr ⟨_, rfl⟩⟩ rfl
  obtain ⟨hstatus, herr, hwerr⟩ := statusWord_complete hb hd
  refine ⟨t, _, (run_polls hr hp 2).trans hrun, hb, hd, hpend, rfl, hstatus, herr, hwerr, hlog, ?_⟩
  rw [statusWord_busy, busy_of_eng he, Bool.toNat_true]

/-! ## WR64 and RD64 -/

/-- The two halves of a number, written one after the other, give the number back (rule R101). -/
theorem withHi_withLo_toNat (c : Count) {n : Nat} (hn : n < 2 ^ 64) :
    (withHi (withLo c (BitVec.ofNat 32 (n % 2 ^ 32))) (BitVec.ofNat 32 (n / 2 ^ 32))).toNat = n := by
  rw [withHi_toNat, withLo_toNat, toNat_word (by omega), toNat_word (by omega)]
  omega

theorem combine64_halves (c : Count) : combine64 (loHalf c) (hiHalf c) = c.toNat := by
  rw [combine64, loHalf_toNat, hiHalf_toNat]
  omega

/-! ## LOADM -/

theorem cellNat_storeCell_same (sp : Space) (a v : Nat) (s : State) :
    cellNat sp a (storeCell sp a v s) = v % (if sp = .bit then 2 else 256) := by
  cases sp with
  | pix =>
    obtain ⟨h, -⟩ := Memory.cell_write s.pix a (BitVec.ofNat 8 v) (Config.powerOnByte .pix)
    exact (congrArg BitVec.toNat h).trans (BitVec.toNat_ofNat v 8)
  | pay =>
    obtain ⟨h, -⟩ := Memory.cell_write s.pay a (BitVec.ofNat 8 v) (Config.powerOnByte .pay)
    exact (congrArg BitVec.toNat h).trans (BitVec.toNat_ofNat v 8)
  | bit =>
    obtain ⟨h, -⟩ := Memory.cell_write s.bit a (v.testBit 0) Config.powerOnBit
    have hbit : (v.testBit 0).toNat = v % 2 := by rw [Nat.toNat_testBit, Nat.pow_zero, Nat.div_one]
    exact (congrArg Bool.toNat h).trans hbit

theorem cellNat_storeCell_other {sp sp' : Space} {a b : Nat} (h : sp' ≠ sp ∨ b ≠ a) (v : Nat) (s : State) :
    cellNat sp' b (storeCell sp a v s) = cellNat sp' b s := by
  have hne (e : sp' = sp) : b ≠ a := h.resolve_left (absurd e)
  cases sp with
  | pix =>
    cases sp' with
    | pix => exact congrArg BitVec.toNat ((Memory.cell_write s.pix a _ (Config.powerOnByte .pix)).2 b (hne rfl))
    | pay | bit => rfl
  | pay =>
    cases sp' with
    | pay => exact congrArg BitVec.toNat ((Memory.cell_write s.pay a _ (Config.powerOnByte .pay)).2 b (hne rfl))
    | pix | bit => rfl
  | bit =>
    cases sp' with
    | bit => exact congrArg Bool.toNat ((Memory.cell_write s.bit a _ Config.powerOnBit).2 b (hne rfl))
    | pix | pay => rfl

/-- What `t` has that `s` has not: the values `vs` in the cells of `sp` from `a` on, and other inputs and records. -/
structure LoadedCells (sp : Space) (a : Nat) (vs : List Nat) (s t : State) : Prop where
  frame : t = { s with pix := t.pix, pay := t.pay, bit := t.bit, pending := t.pending, log := t.log }
  loaded : ∀ k (h : k < vs.length), cellNat sp (a + k) t = vs[k] % (if sp = .bit then 2 else 256)
  other : ∀ sp' b, sp' ≠ sp ∨ b < a ∨ a + vs.length ≤ b → cellNat sp' b t = cellNat sp' b s

theorem loadedCells_nil (sp : Space) (a : Nat) (s : State) : LoadedCells sp a [] s s where
  frame := rfl
  loaded _ h := absurd h (Nat.not_lt_zero _)
  other _ _ _ := rfl

/-- The writes that follow a cell's own are to later cells. -/
theorem loadedCells_cons {sp : Space} {a n : Nat} {vs : List Nat} (h : LoadedCells sp a [n] s t)
    (h' : LoadedCells sp (a + 1) vs t u) : LoadedCells sp a (n :: vs) s u where
  frame := by rw [h'.frame, h.frame]
  loaded k hk := by
    cases k with
    | zero => exact (h'.other sp a (.inr (.inl (Nat.lt_succ_self a)))).trans (h.loaded 0 Nat.one_pos)
    | succ k =>
      have hcell := h'.loaded k (by simpa using hk)
      rwa [Nat.add_assoc, Nat.add_comm 1 k] at hcell
  other sp' b hb := by
    rw [List.length_cons] at hb
    exact (h'.other sp' b (hb.imp_right fun hb => by omega)).trans
      (h.other sp' b (hb.imp_right fun hb => by rw [List.length_singleton]; omega))

/-- `WRM <S>[a], n` in a block that runs no command (rule R98). -/
theorem step_hostWRM {sp : Space} {a n : Nat} (hr : s.rst = false) (hb : s.busy = false) (ha : a < s.cfg.size sp)
    (hp : s.pending = .wrm sp a n :: rest) : ∃ t, step s = .next t ∧ t.pending = rest ∧ LoadedCells sp a [n] s t := by
  have hcell (sp' : Space) (b : Nat) : cellNat sp' b { storeCell sp a n s with
      pending := rest, log := ⟨.mem sp, .w, a, n⟩ :: s.log } = cellNat sp' b (storeCell sp a n s) := by
    cases sp' <;> rfl
  refine ⟨_, step_of_writesCell (writesCell_idle hr hb ha n) hp, rfl, ?_, fun k hk => ?_, fun sp' b hb' => ?_⟩
  · cases sp <;> rfl
  · obtain rfl : k = 0 := by simpa using hk
    exact (hcell sp a).trans (cellNat_storeCell_same sp a n s)
  · refine (hcell sp' b).trans (cellNat_storeCell_other (hb'.imp_right fun hb' => ?_) n s)
    rw [List.length_singleton] at hb'
    omega

theorem run_hostLOADM {sp : Space} {a : Nat} {vs : List Nat} (hr : s.rst = false) (hb : s.busy = false)
    (hl : a + vs.length ≤ s.cfg.size sp) (hp : s.pending = hostLOADM sp a vs) :
    ∃ t, Sys2Proof.core.run vs.length s = .next t ∧ t.pending = [] ∧ LoadedCells sp a vs s t := by
  induction vs generalizing s a with
  | nil => exact ⟨s, rfl, hp, loadedCells_nil sp a s⟩
  | cons v vs ih =>
    rw [List.length_cons] at hl
    obtain ⟨t, hs, hpt, ht⟩ := step_hostWRM hr hb (by omega) hp
    have hframe := ht.frame
    obtain ⟨u, hrun, hpu, hu⟩ := ih (s := t) (a := a + 1) (by rw [hframe]; exact hr) (by rw [hframe]; exact hb)
      (by rw [hframe]; exact le_of_eq_of_le (by omega) hl) hpt
    exact ⟨u, (run_succ hs _).trans hrun, hpu, loadedCells_cons ht hu⟩

/-- Settles O47: each pseudo-instruction is run by the transactions it stands for. -/
theorem pseudoInstructionsDoWhatTheyStandFor : Obligations.PseudoInstructionsDoWhatTheyStandFor := by
  intro s hr hb
  refine ⟨fun v hv hp => ?_, fun v hv hp => ?_, fun hp => ?_, fun hi hp => ?_, fun i hp => ?_,
    fun sp a vs hl hp => ?_⟩
  · exact ⟨_, run_two (step_hostWR (r := .lenLo) hr hb hp) (step_hostWR (r := .lenHi) hr hb rfl), rfl,
      withHi_withLo_toNat s.len hv⟩
  · exact ⟨_, run_two (step_hostWR (r := .bitcntLo) hr hb hp) (step_hostWR (r := .bitcntHi) hr hb rfl), rfl,
      withHi_withLo_toNat s.bitcnt hv⟩
  · exact ⟨_, _, combine64_halves s.outcnt,
      run_two (step_hostRD (r := .outcntLo) hr hp) (step_hostRD (r := .outcntHi) hr rfl)⟩
  · have hcap : (capReg s).toNat = s.gridW * s.gridH * 3 := by
      rw [capReg_toNat, Nat.mod_eq_of_lt (capacity_lt hi)]
    exact ⟨_, _, (combine64_halves (capReg s)).trans hcap,
      run_two (step_hostRD (r := .capLo) hr hp) (step_hostRD (r := .capHi) hr rfl)⟩
  · exact ⟨_, step_hostWR (r := .cmd) hr hb hp, rfl, rfl, rfl⟩
  · obtain ⟨t, hrun, hpend, hframe, hloaded, hother⟩ := run_hostLOADM hr hb hl hp
    rw [hpend] at hframe
    exact ⟨t, hrun, hframe, hloaded, hother⟩

end Sys2Proof.Machine
end

section
/-! O11 to O14 and O22: the codec's commands (40_codec.md rules R113 to R117). BYTES2BITS and BITS2BYTES each write
consecutive cells from 0, so a cell after them is an element of the serialised bits or of the packed bytes, and a cell
past the last of these is as it was. -/

namespace Sys2Proof.Machine

/-! ## Cells read, serialised and packed -/

theorem getElem?_memRead {α : Type} (f : Nat → α) {n i : Nat} (h : i < n) : (memRead f n)[i]? = some (f i) := by
  rw [List.getElem?_eq_getElem (by rwa [length_memRead]), getElem_memRead]

/-- Where the cells read are written back, they do not change. -/
theorem getD_getElem?_memRead {α : Type} (f : Nat → α) (n a : Nat) : (memRead f n)[a]?.getD (f a) = f a := by
  by_cases h : a < n
  · rw [getElem?_memRead f h, Option.getD_some]
  · rw [List.getElem?_eq_none (by rw [length_memRead]; omega), Option.getD_none]

/-- Reading a list of cells back where they were written gives the list. -/
theorem memRead_getD_getElem? {α : Type} (vs : List α) (f : Nat → α) :
    memRead (fun a => vs[a]?.getD (f a)) vs.length = vs := by
  refine List.ext_getElem (length_memRead _ _) fun a _ ha => ?_
  rw [getElem_memRead, List.getElem?_eq_getElem ha, Option.getD_some]

theorem getElem?_serialised (f : Nat → Byte) {n i j : Nat} (hi : i < n) (hj : j < 8) :
    (bytesToBits (memRead f n))[8 * i + j]? = some ((f i).getLsbD (7 - j)) := by
  rw [getElem?_bytesToBits _ i j hj, getElem?_memRead f hi, Option.map_some]

/-- Byte `i` of the packed bits, by its bits (rule R111). -/
theorem getElem?_packed (f : Nat → Bool) {m i : Nat} (h8 : m % 8 = 0) (hi : i < m / 8) :
    ∃ b, (packBytes (memRead f m))[i]? = some b ∧ ∀ j < 8, b.getLsbD (7 - j) = f (8 * i + j) := by
  have hl : (memRead f m).length % 8 = 0 := by rwa [length_memRead]
  have hb := List.getElem?_eq_getElem (l := packBytes (memRead f m)) (i := i)
    (by rwa [length_packBytes _ hl, length_memRead])
  refine ⟨_, hb, fun j hj => ?_⟩
  have hbit := getLsbD_packBytes _ hl i j hj
  rw [hb, getElem?_memRead f (by omega), Option.map_some] at hbit
  exact (Option.some.inj hbit).symm

/-! ## What a consecutive write leaves -/

theorem bitAt_of_cellsFrom {h : Held} {vs : Bits} (hh : h.bit = cellsFrom 0 vs) (s : State) (a : Nat) :
    (completeOk h s).bitAt a = vs[a]?.getD (s.bitAt a) := by
  rw [bitAt_completeOk, hh, find_cellsFrom_zero]

theorem payAt_of_cellsFrom {h : Held} {vs : Bytes} (hh : h.pay = cellsFrom 0 vs) (s : State) (a : Nat) :
    (completeOk h s).payAt a = vs[a]?.getD (s.payAt a) := by
  rw [payAt_completeOk, hh, find_cellsFrom_zero]

/-- A completion that writes BIT and OUTCNT only. -/
theorem completeOk_bit_outcnt (cs : List (Nat × Bool)) (n : Count) (s : State) :
    completeOk { bit := cs, outcnt := some n } s =
      { s.completed with bit := Memory.writeAll s.bit cs, outcnt := n } := rfl

/-- A completion that writes PAY and OUTCNT only. -/
theorem completeOk_pay_outcnt (cs : List (Nat × Byte)) (n : Count) (s : State) :
    completeOk { pay := cs, outcnt := some n } s =
      { s.completed with pay := Memory.writeAll s.pay cs, outcnt := n } := rfl

/-! ## The two conversions -/

/-- Settles O11: the bits held are the serialised payload, from cell 0 on. -/
theorem bytes2bitsSerialisesOrBounds : Obligations.Bytes2bitsSerialisesOrBounds := by
  refine ⟨decodeInvertsEncode .bytes2bits rfl, fun s hw => ⟨fun hp hb => ?_, fun h => ?_⟩⟩
  · obtain ⟨-, -, -, -, -, -, -, hsize⟩ := wf_bounds hw
    refine ⟨_, exec_of_ok (planBytes2bits_ok hp hb), completeOk_bit_outcnt _ _ s, toNat_count (by omega),
      fun i hi j hj => ?_, fun a ha => ?_⟩
    · rw [bitAt_of_cellsFrom rfl, getElem?_serialised s.payAt hi hj, Option.getD_some]
    · rw [bitAt_of_cellsFrom rfl, List.getElem?_eq_none (by rwa [length_bytesToBits, length_memRead]),
        Option.getD_none]
  · exact exec_of_error (planBytes2bits_bounds h)

/-- Settles O12: the bytes held are the packed bits, from cell 0 on; the first check that fails gives the code. -/
theorem bits2bytesPacksOrFails : Obligations.Bits2bytesPacksOrFails := by
  refine ⟨decodeInvertsEncode .bits2bytes rfl, fun s hw => ⟨fun hb h8 hp => ?_, fun hb => ?_, fun hb h8 => ?_,
    fun hb h8 hp => ?_⟩⟩
  · obtain ⟨-, -, -, -, -, hsize, -⟩ := wf_bounds hw
    have hl : (memRead s.bitAt s.bitcntNat).length % 8 = 0 := by rwa [length_memRead]
    refine ⟨_, exec_of_ok (planBits2bytes_ok hb h8 hp), completeOk_pay_outcnt _ _ s, toNat_count (by omega),
      fun i hi j hj => ?_, fun a ha => ?_⟩
    · obtain ⟨b, hbyte, hbits⟩ := getElem?_packed s.bitAt h8 hi
      rw [payAt_of_cellsFrom rfl, hbyte, Option.getD_some, hbits j hj]
    · rw [payAt_of_cellsFrom rfl, List.getElem?_eq_none (by rwa [length_packBytes _ hl, length_memRead]),
        Option.getD_none]
  · exact exec_of_error (planBits2bytes_source hb)
  · exact exec_of_error (planBits2bytes_framing hb h8)
  · exact exec_of_error (planBits2bytes_bounds hb h8 hp)

/-! ## The round trip -/

theorem bitsToBytes_bytesToBits (b : Bytes) : bitsToBytes (bytesToBits b) = .ok b := by
  rw [bitsToBytes_ok (by rw [length_bytesToBits]; omega), packBytes_bytesToBits]

/-- BIT read back after a completion that wrote `vs` there. -/
theorem memRead_bitAt_completeOk (vs : Bits) (n : Count) (s : State) :
    memRead (completeOk { bit := cellsFrom 0 vs, outcnt := some n } s).bitAt vs.length = vs := by
  rw [funext (bitAt_of_cellsFrom rfl s), memRead_getD_getElem?]

/-- BITS2BYTES on serialised bytes holds those bytes. -/
theorem plan_bits2bytes_of_serialised {s : State} {bs : Bytes} (hm : s.bitcntNat = 8 * bs.length)
    (hbits : memRead s.bitAt s.bitcntNat = bytesToBits bs) (hp : bs.length ≤ s.cfg.paySize)
    (hb : 8 * bs.length ≤ s.cfg.bitSize) :
    plan .bits2bytes s = .ok { pay := cellsFrom 0 bs, outcnt := some (BitVec.ofNat 64 bs.length) } := by
  have hdiv : s.bitcntNat / 8 = bs.length := by omega
  rw [plan, planBits2bytes_ok (by omega) (by omega) (by omega), hbits, packBytes_bytesToBits, hdiv]

/-- Settles O22: BITS2BYTES packs what BYTES2BITS serialised, and so writes the payload back over itself. -/
theorem codecRoundTrip : Obligations.CodecRoundTrip := by
  refine ⟨bitsToBytes_bytesToBits, fun s h8 => ⟨_, bitsToBytes_ok h8, bytesToBits_packBytes s h8⟩, fun s hp hb => ?_⟩
  refine ⟨_, exec_of_ok (planBytes2bits_ok hp hb), rfl, fun m hm => ?_⟩
  have hl : (memRead s.payAt s.lenNat).length = s.lenNat := length_memRead _ _
  have hbits := memRead_bitAt_completeOk (bytesToBits (memRead s.payAt s.lenNat)) (.ofNat 64 (8 * s.lenNat)) s
  rw [length_bytesToBits, hl, ← hm] at hbits
  refine ⟨_, exec_of_ok (plan_bits2bytes_of_serialised (by rwa [hl]) hbits (by rwa [hl]) (by rwa [hl])), rfl,
    ?_, fun a => ?_⟩
  · rw [hl]
    exact toNat_count s.len.isLt
  · rw [payAt_of_cellsFrom rfl]
    exact getD_getElem?_memRead s.payAt s.lenNat a

/-! ## SETLSB -/

/-- VALUE is the low byte of LSB_IN (10_state.md rule R38). -/
theorem getLsbD_lsbValue (s : State) {i : Nat} (hi : i < 8) : s.lsbValue.getLsbD i = s.lsbIn.getLsbD i := by
  rw [State.lsbValue, BitVec.getLsbD_extractLsb', decide_eq_true hi, Bool.true_and, Nat.zero_add]

/-- Settles O13: SETLSB has no check, and LSB_OUT is `setLsb` of its two operands. -/
theorem setlsbReplacesBitZero : Obligations.SetlsbReplacesBitZero := by
  refine ⟨decodeInvertsEncode .setlsb rfl, fun s => ⟨_, exec_of_ok (i := .setlsb) rfl, rfl, ?_, fun i h1 h8 => ?_⟩⟩
  · exact getLsbD_zero_setLsb s.lsbValue s.lsbBit
  · calc (setLsb s.lsbValue s.lsbBit).getLsbD i
      _ = s.lsbValue.getLsbD i := by rw [getLsbD_setLsb _ _ _ h8, if_neg (by omega)]
      _ = s.lsbIn.getLsbD i := getLsbD_lsbValue s h8

/-- The last bit set wins. -/
theorem setLsb_setLsb (v : Byte) (b1 b2 : Bool) : setLsb (setLsb v b1) b2 = setLsb v b2 := by
  refine BitVec.eq_of_getLsbD_eq fun i hi => ?_
  rw [getLsbD_setLsb _ _ _ hi, getLsbD_setLsb _ _ _ hi, getLsbD_setLsb _ _ _ hi]
  by_cases h : i = 0 <;> simp [h]

/-- `setLsb` leaves the upper seven bits. -/
theorem setLsb_toNat_div_two (v : Byte) (b : Bool) : (setLsb v b).toNat / 2 = v.toNat / 2 := by
  refine Nat.eq_of_testBit_eq fun i => ?_
  rw [Nat.testBit_div_two, Nat.testBit_div_two, BitVec.testBit_toNat, BitVec.testBit_toNat]
  by_cases hi : i + 1 < 8
  · rw [getLsbD_setLsb _ _ _ hi, if_neg (Nat.succ_ne_zero i)]
  · rw [BitVec.getLsbD_of_ge _ _ (by omega), BitVec.getLsbD_of_ge _ _ (by omega)]

/-- Settles O14: the first law is the second at equal bits, and two numbers with the same upper bits differ by at most
1. -/
theorem setLsbLaws : Obligations.SetLsbLaws := by
  intro v b b1 b2
  have hdiv := setLsb_toNat_div_two v b
  exact ⟨setLsb_setLsb v b b, setLsb_setLsb v b1 b2, by omega, by omega⟩

end Sys2Proof.Machine
end

section
/-! O15, O16 and O23: the framer's commands (41_framer.md rules R133 to R135). FRAME leaves the framed bitstream in BIT;
UNFRAME succeeds wherever BIT states a header whose payload fits, and leaves in PAY the bytes of the bits that follow the
header. The round trip is the second fact at a BIT that holds the framed bitstream. -/

namespace Sys2Proof.Machine

/-! ## FRAME -/

/-- BIT after a FRAME whose checks passed (rule R133). -/
theorem bitAt_of_framed {s : State} {h : Held}
    (hh : h.bit = cellsFrom 0 (bytesToBits (be32 s.lenNat ++ memRead s.payAt s.lenNat))) :
    (∀ k < 32 + 8 * s.lenNat, (completeOk h s).bitAt k = s.framedBit k) ∧
    ∀ a, 32 + 8 * s.lenNat ≤ a → (completeOk h s).bitAt a = s.bitAt a := by
  refine ⟨fun k hk => ?_, fun a ha => ?_⟩
  · rw [bitAt_of_cellsFrom hh, getElem?_framed hk, Option.getD_some]
  · rw [bitAt_of_cellsFrom hh, List.getElem?_eq_none (by rwa [length_framedBits]), Option.getD_none]

/-- Settles O15: the bits held are the framed payload, from cell 0 on; the first check that fails gives the code. -/
theorem frameBuildsBitstreamOrFails : Obligations.FrameBuildsBitstreamOrFails := by
  refine ⟨decodeInvertsEncode .frame rfl, fun s hw => ⟨fun hl hp hb => ?_, fun hl => ?_, fun hl h => ?_⟩⟩
  · obtain ⟨-, -, -, -, -, -, -, hsize⟩ := wf_bounds hw
    exact ⟨_, exec_of_ok (planFrame_ok hl hp hb), completeOk_bits s rfl rfl rfl, toNat_count (by omega),
      toNat_word (by omega), bitAt_of_framed rfl⟩
  · exact exec_of_error (planFrame_tooLarge hl)
  · exact exec_of_error (planFrame_bounds hl h)

/-- What a FRAME that succeeded has checked and written (rule R133). -/
theorem frame_ok {s t : State} (h : exec .frame s = .next t) (he : t.err = .ok) :
    s.lenNat ≤ 2 ^ 32 - 1 ∧ s.lenNat ≤ s.cfg.paySize ∧ ∀ k < 32 + 8 * s.lenNat, t.bitAt k = s.framedBit k := by
  obtain ⟨hd, hp, rfl⟩ := exec_ok_cases h he
  rcases plan_ok_cases hp with ⟨⟨⟩, -⟩ | ⟨⟨⟩, -⟩ | ⟨⟨⟩, -⟩ | ⟨-, hl, hpay, -, rfl⟩ | ⟨⟨⟩, -⟩ |
    ⟨_, ⟨⟨⟩, -⟩ | ⟨⟨⟩, -⟩, -⟩
  exact ⟨hl, hpay, (bitAt_of_framed rfl).1⟩

/-! ## UNFRAME -/

section
variable {s : State} {n : Nat}

/-- Where BIT states the header `n` and `n` bytes fit, UNFRAME writes them to PAY (rule R134). -/
theorem unframe_ok (hn : IsHeader s.bitAt n) (hb : s.bitcntNat ≤ s.cfg.bitSize) (hm : 32 + 8 * n ≤ s.bitcntNat)
    (hp : n ≤ s.cfg.paySize) :
    ∃ t, exec .unframe s = .next t ∧
      t = { s.completed with pay := t.pay, outcnt := t.outcnt, hdr := t.hdr } ∧
      t.outcnt.toNat = n ∧ t.hdr.toNat = n ∧
      (∀ i < n, ∀ j < 8, (t.payAt i).getLsbD (7 - j) = s.bitAt (32 + 8 * i + j)) ∧
      (∀ a, n ≤ a → t.payAt a = s.payAt a) := by
  have hlt : n < 2 ^ 32 := hn.1
  have hlen : 32 + 8 * n ≤ (memRead s.bitAt s.bitcntNat).length := by rwa [length_memRead]
  have hplan := planUnframe_eq hb
  rw [planPayload_ok (by rwa [hdrValue_memRead hn (by omega)]) (by rwa [hdrValue_memRead hn (by omega)]),
    hdrValue_memRead hn (by omega)] at hplan
  exact ⟨_, exec_of_ok hplan, completeOk_payload s rfl rfl rfl, toNat_count (by omega), toNat_word hlt,
    payAt_of_payload hlen (fun k hk => getElem?_memRead s.bitAt (by omega)) rfl⟩

/-- Where BITCNT is too small for the header, or for the payload the header states, UNFRAME fails (rule R134). -/
theorem unframe_corrupt (hb : s.bitcntNat ≤ s.cfg.bitSize)
    (h : s.bitcntNat < 32 ∨ s.bitcntNat < 32 + 8 * hdrValue (memRead s.bitAt s.bitcntNat)) :
    exec .unframe s = .next (s.failed .corrupt) :=
  exec_of_error ((planUnframe_eq hb).trans (planPayload_corrupt (by rwa [length_memRead])))

/-- Where the header's payload is in BIT but does not fit PAY, UNFRAME fails (rule R134). -/
theorem unframe_bounds (hn : IsHeader s.bitAt n) (hb : s.bitcntNat ≤ s.cfg.bitSize) (hm : 32 + 8 * n ≤ s.bitcntNat)
    (hp : s.cfg.paySize < n) : exec .unframe s = .next (s.failed .bounds) := by
  have hv := hdrValue_memRead hn (show 32 ≤ s.bitcntNat by omega)
  exact exec_of_error ((planUnframe_eq hb).trans
    (planPayload_bounds (by rwa [hv, length_memRead]) (by rwa [hv])))

end

/-- Settles O16: the header's value is the number that BIT states; the first check that fails gives the code. -/
theorem unframeDecodesBitstreamOrFails : Obligations.UnframeDecodesBitstreamOrFails := by
  refine ⟨decodeInvertsEncode .unframe rfl, fun s _ => ⟨fun n hn hb => ?_, fun hb => ?_, fun hb hm => ?_⟩⟩
  · refine ⟨unframe_ok hn hb, fun h32 hm => ?_, unframe_bounds hn hb⟩
    exact unframe_corrupt hb (.inr (by rwa [hdrValue_memRead hn h32]))
  · exact exec_of_error (planUnframe_source hb)
  · exact unframe_corrupt hb (.inl hm)

/-! ## The round trip -/

/-- The framed bitstream states the payload's length. -/
theorem isHeader_framedBit {s : State} (hl : s.lenNat ≤ 2 ^ 32 - 1) : IsHeader s.framedBit s.lenNat :=
  ⟨by omega, fun _ hj => (if_pos hj).symm⟩

/-- After the header the framed bitstream holds the payload's bits. -/
theorem framedBit_payload (s : State) (i : Nat) {j : Nat} (hj : j < 8) :
    s.framedBit (32 + 8 * i + j) = (s.payAt i).getLsbD (7 - j) := by
  have hdiv : (32 + 8 * i + j - 32) / 8 = i := by omega
  have hmod : (32 + 8 * i + j - 32) % 8 = j := by omega
  rw [State.framedBit, if_neg (by omega), hdiv, hmod]

theorem byte_eq_of_bits {a b : Byte} (h : ∀ j < 8, a.getLsbD (7 - j) = b.getLsbD (7 - j)) : a = b :=
  byteBits_injective (List.map_congr_left fun j hj => h j (List.mem_range.mp hj))

/-- UNFRAME recovers the payload from a BIT that holds its framed bitstream. -/
theorem unframe_of_framed {s u : State} (hl : s.lenNat ≤ 2 ^ 32 - 1) (hp : s.lenNat ≤ u.cfg.paySize)
    (hbits : ∀ k < 32 + 8 * s.lenNat, u.bitAt k = s.framedBit k) (hm : 32 + 8 * s.lenNat ≤ u.bitcntNat)
    (hb : u.bitcntNat ≤ u.cfg.bitSize) :
    ∃ v, exec .unframe u = .next v ∧ v.err = .ok ∧ v.outcnt.toNat = s.lenNat ∧ v.hdr.toNat = s.lenNat ∧
      ∀ a < s.lenNat, v.payAt a = s.payAt a := by
  have hheader : IsHeader u.bitAt s.lenNat := by
    obtain ⟨hlt, hstated⟩ := isHeader_framedBit hl
    exact ⟨hlt, fun j hj => (hstated j hj).trans (hbits j (by omega)).symm⟩
  obtain ⟨v, hv, hframe, hout, hhdr, hpay, -⟩ := unframe_ok hheader hb hm hp
  refine ⟨v, hv, by rw [hframe]; rfl, hout, hhdr, fun a ha => byte_eq_of_bits fun j hj => ?_⟩
  calc (v.payAt a).getLsbD (7 - j)
    _ = u.bitAt (32 + 8 * a + j) := hpay a ha j hj
    _ = s.framedBit (32 + 8 * a + j) := hbits _ (by omega)
    _ = (s.payAt a).getLsbD (7 - j) := framedBit_payload s a hj

/-- Settles O23: a successful FRAME leaves the framed bitstream in BIT, and UNFRAME recovers the payload from it. -/
theorem framerRoundTrip : Obligations.FramerRoundTrip := by
  refine ⟨fun p t hp => ⟨_, frameBits_ok hp, unframeBits_framed p t hp⟩, fun s t u ht he hcfg hbits hm hb => ?_⟩
  obtain ⟨hl, hpay, hframed⟩ := frame_ok ht he
  exact unframe_of_framed hl (by rwa [hcfg]) (fun k hk => (hbits k hk).trans (hframed k hk)) hm (by rwa [hcfg])

end Sys2Proof.Machine
end

section
/-! O8 and O17 to O20: EMBED (42_embedder.md rules R153 to R157). Where its checks pass, each cell it can reach is the cell
of a slot that carries a bit of the framed bitstream; where one fails, and so after every command that raises an error,
nothing but STATUS and ENG has changed. -/

namespace Sys2Proof.Machine

variable {s t : State}

/-! ## A failed command -/

/-- Settles O8: a completion with an error performs no held write, and its code is the one `t` holds. -/
theorem failedCommandChangesStatusOnly : Obligations.FailedCommandChangesStatusOnly := by
  intro i s t h he
  rcases exec_cases h with ⟨hd, -, rfl⟩ | ⟨e, -, rfl⟩
  · exact absurd (completeOk_err hd s) he
  · rfl

/-! ## What EMBED does -/

/-- Where the checks pass, EMBED writes the framed bitstream into the slots' LSBs (rules R153 and R154). -/
theorem embed_ok (hw : s.cfg.wf = true) (hg : geometryOk s = true) (hl : s.lenNat ≤ 2 ^ 32 - 1)
    (hp : s.lenNat ≤ s.cfg.paySize) (hc : 32 + 8 * s.lenNat ≤ capacity s) :
    ∃ t, exec .embed s = .next t ∧
      t = { s.completed with pix := t.pix, outcnt := t.outcnt, hdr := t.hdr } ∧
      t.outcnt.toNat = 32 + 8 * s.lenNat ∧ t.hdr.toNat = s.lenNat ∧
      (∀ k < 32 + 8 * s.lenNat,
        t.pixAt (slotAddr s.chan k) = setLsb (s.pixAt (slotAddr s.chan k)) (s.framedBit k)) ∧
      (∀ a, (∀ k < 32 + 8 * s.lenNat, a ≠ slotAddr s.chan k) → t.pixAt a = s.pixAt a) := by
  obtain ⟨-, -, -, -, -, hsize, -⟩ := wf_bounds hw
  exact ⟨_, exec_of_ok (planEmbed_ok hg hl hp hc), completeOk_pixels s rfl rfl rfl, toNat_count (by omega),
    toNat_word (by omega), pixAt_of_framed (three_le_chan hg) rfl⟩

/-- Every cell that an EMBED changes is the cell of a slot that carries a bit of the framed bitstream (rule R154). -/
theorem embed_changes_slot {a : Nat} (h : exec .embed s = .next t) (ha : t.pixAt a ≠ s.pixAt a) :
    3 ≤ s.chan ∧ ∃ k < 32 + 8 * s.lenNat, a = slotAddr s.chan k := by
  rcases exec_cases h with ⟨hd, hp, rfl⟩ | ⟨e, -, rfl⟩
  · rcases plan_ok_cases hp with ⟨⟨⟩, -⟩ | ⟨⟨⟩, -⟩ | ⟨⟨⟩, -⟩ | ⟨⟨⟩, -⟩ | ⟨-, hg, -, -, -, rfl⟩ |
      ⟨_, ⟨⟨⟩, -⟩ | ⟨⟨⟩, -⟩, -⟩
    have hchan := three_le_chan hg
    refine ⟨hchan, by_contra fun hne => ha ?_⟩
    exact (pixAt_of_framed hchan rfl).2 a fun k hk e => hne ⟨k, hk, e⟩
  · exact absurd rfl ha

/-- Settles O17: each slot of the bitstream has its LSB set; the first check that fails gives the code. -/
theorem embedWritesSlotLsbsOrFails : Obligations.EmbedWritesSlotLsbsOrFails := by
  refine ⟨decodeInvertsEncode .embed rfl, fun s hw => ⟨fun h => ?_, fun h => ?_⟩⟩
  · have hg := (geometryOk_iff s).mpr h
    refine ⟨fun hl hp hc => ?_, fun hl => ?_, fun hl hp => ?_, fun hl hp hc => ?_⟩
    · obtain ⟨t, ht, hframe, hout, hhdr, hslot, hother⟩ := embed_ok hw hg hl hp hc
      exact ⟨t, ht, hframe, hout, hhdr, fun k hk => pixAt_setLsb_bit (hslot k hk), hother⟩
    · exact exec_of_error (planEmbed_tooLarge hg hl)
    · exact exec_of_error (planEmbed_bounds hg hl hp)
    · exact exec_of_error (planEmbed_capacity hg hl hp hc)
  · exact exec_of_error (planEmbed_geometry (geometryOk_false h))

/-! ## What EMBED leaves alone -/

/-- Settles O18: a slot's cell has channel 0, 1 or 2, and EMBED alone holds writes of PIX. -/
theorem fourthChannelIsNeverModified : Obligations.FourthChannelIsNeverModified := by
  refine ⟨fun s t hc h p => ?_, fun i s t hi h => ?_⟩
  · by_contra hne
    obtain ⟨hchan, k, -, ha⟩ := embed_changes_slot h hne
    have hmod := slotAddr_mod (k := k) hchan
    rw [← ha, hc] at hmod
    omega
  · obtain ⟨u, hu, -, hpix, -⟩ := commandWritesOnlyWhatTheMapNames i s
    obtain rfl : u = t := Host.Outcome.next.inj (hu.symm.trans h)
    exact hpix hi

/-- Settles O19: the changed cell is a slot's, and its pixel and channel are the slot's quotient and remainder by 3. -/
theorem embedTouchesOnlyTheFirstPixels : Obligations.EmbedTouchesOnlyTheFirstPixels := by
  intro s t p c h hc hne
  obtain ⟨hchan, k, hk, ha⟩ := embed_changes_slot h hne
  obtain ⟨hpixel, hchannel⟩ := (Nat.div_mod_unique (show 0 < s.chan by omega)).mpr
    ⟨show c + s.chan * p = slotAddr s.chan k by rw [← ha, Nat.mul_comm, Nat.add_comm], hc⟩
  rw [slotAddr_div hchan] at hpixel
  rw [slotAddr_mod hchan] at hchannel
  omega

/-! ## The capacity boundary -/

/-- Settles O20: at the capacity every check passes and every slot carries a bit; past it the last check fails. -/
theorem capacityBoundary : Obligations.CapacityBoundary := by
  intro s hw hch hsize hp
  have hg := (geometryOk_iff s).mpr ⟨hch, hsize⟩
  obtain ⟨-, -, -, -, -, hpay, -⟩ := wf_bounds hw
  have hl : s.lenNat ≤ 2 ^ 32 - 1 := hp.trans hpay
  refine ⟨fun hT => ⟨by omega, ?_⟩, fun hT => ⟨by omega, ?_⟩⟩
  · obtain ⟨t, ht, hframe, -, -, hslot, -⟩ := embed_ok hw hg hl hp hT.le
    refine ⟨t, ht, by rw [hframe]; rfl, fun k hk => ?_⟩
    rw [hslot k (hT ▸ hk), getLsbD_zero_setLsb]
  · exact exec_of_error (planEmbed_capacity hg hl hp (Nat.lt_of_succ_le hT.ge))

end Sys2Proof.Machine
end

section
/-! O21, O24 and O25: EXTRACT (43_extractor.md rules R171, R172 and R174). The number that the first 32 slots' LSBs state
decides the checks and the counts, and each payload byte is read from its own eight slots. The round trip is this at a
grid whose slots hold the framed bitstream, and the independence is this at two grids that agree on those slots. -/

namespace Sys2Proof.Machine

variable {s s' t : State} {n : Nat}

/-! ## What EXTRACT does -/

theorem extract_error {e : ErrCode} (hg : geometryOk s = true) (h : planPayload s.cfg (collect s) = .error e) :
    exec .extract s = .next (s.failed e) := exec_of_error ((planExtract_eq hg).trans h)

/-- Where the grid states `n` and `n` bytes fit, EXTRACT writes them to PAY (rule R171). -/
theorem extract_ok (hg : geometryOk s = true) (hn : hdrValue (collect s) = n) (hm : 32 + 8 * n ≤ capacity s)
    (hp : n ≤ s.cfg.paySize) (ht : exec .extract s = .next t) :
    t = { s.completed with pay := t.pay, outcnt := t.outcnt, hdr := t.hdr } ∧
      t.outcnt.toNat = n ∧ t.hdr.toNat = n ∧
      (∀ i < n, ∀ j < 8, (t.payAt i).getLsbD (7 - j) = s.slotLsb (32 + 8 * i + j)) ∧
      (∀ a, n ≤ a → t.payAt a = s.payAt a) := by
  have hlt : n < 2 ^ 32 := hn ▸ hdrValue_lt (collect s)
  have hlen : 32 + 8 * n ≤ (collect s).length := by rwa [length_collect]
  have hplan := planExtract_eq hg
  rw [planPayload_ok (by rwa [hn]) (by rwa [hn]), hn] at hplan
  obtain rfl := Host.Outcome.next.inj ((exec_of_ok (i := .extract) hplan).symm.trans ht)
  exact ⟨completeOk_payload s rfl rfl rfl, toNat_count (by omega), toNat_word hlt,
    payAt_of_payload hlen (fun k hk => getElem?_collect s (by omega)) rfl⟩

/-- Settles O21: the header's value is the number that the slots state; the first check that fails gives the code. -/
theorem extractDecodesSlotsOrFails : Obligations.ExtractDecodesSlotsOrFails := by
  refine ⟨decodeInvertsEncode .extract rfl, fun s _ => ⟨fun h => ?_, fun h => ?_⟩⟩
  · have hg := (geometryOk_iff s).mpr h
    refine ⟨fun n hn h32 => ?_, fun h32 => ?_⟩
    · have hv : hdrValue (collect s) = n := hdrValue_collect hn h32
      refine ⟨fun hm hp => ⟨_, exec_eq _ s, extract_ok hg hv hm hp (exec_eq _ s)⟩, fun hm => ?_, fun hm hp => ?_⟩
      · exact extract_error hg (planPayload_corrupt (.inr (by rwa [length_collect, hv])))
      · exact extract_error hg (planPayload_bounds (by rwa [length_collect, hv]) (by rwa [hv]))
    · exact extract_error hg (planPayload_corrupt (.inl (by rwa [length_collect])))
  · exact exec_of_error (planExtract_geometry (geometryOk_false h))

/-! ## The round trip -/

/-- What an EMBED that succeeded has checked and written (rules R153 and R154). -/
theorem embed_success (h : exec .embed s = .next t) (he : t.err = .ok) :
    geometryOk s = true ∧ s.lenNat ≤ 2 ^ 32 - 1 ∧ s.lenNat ≤ s.cfg.paySize ∧ 32 + 8 * s.lenNat ≤ capacity s ∧
      ∀ k < 32 + 8 * s.lenNat, (t.pixAt (slotAddr s.chan k)).getLsbD 0 = s.framedBit k := by
  obtain ⟨hd, hp, rfl⟩ := exec_ok_cases h he
  rcases plan_ok_cases hp with ⟨⟨⟩, -⟩ | ⟨⟨⟩, -⟩ | ⟨⟨⟩, -⟩ | ⟨⟨⟩, -⟩ | ⟨-, hg, hl, hpay, hc, rfl⟩ |
    ⟨_, ⟨⟨⟩, -⟩ | ⟨⟨⟩, -⟩, -⟩
  exact ⟨hg, hl, hpay, hc, fun k hk => (pixAt_setLsb_bit ((pixAt_of_framed (three_le_chan hg) rfl).1 k hk)).1⟩

/-- EXTRACT recovers the payload from a grid whose slots hold its framed bitstream. -/
theorem extract_of_framed {u v : State} (hg : geometryOk u = true) (hl : s.lenNat ≤ 2 ^ 32 - 1)
    (hp : s.lenNat ≤ u.cfg.paySize) (hc : 32 + 8 * s.lenNat ≤ capacity u)
    (hslots : ∀ k < 32 + 8 * s.lenNat, u.slotLsb k = s.framedBit k) (hv : exec .extract u = .next v) :
    v.err = .ok ∧ v.outcnt.toNat = s.lenNat ∧ v.hdr.toNat = s.lenNat ∧ ∀ a < s.lenNat, v.payAt a = s.payAt a := by
  have hheader : IsHeader u.slotLsb s.lenNat := by
    obtain ⟨hlt, hstated⟩ := isHeader_framedBit hl
    exact ⟨hlt, fun j hj => (hstated j hj).trans (hslots j (by omega)).symm⟩
  obtain ⟨hframe, hout, hhdr, hpay, -⟩ := extract_ok hg (hdrValue_collect hheader (by omega)) hc hp hv
  refine ⟨by rw [hframe]; rfl, hout, hhdr, fun a ha => byte_eq_of_bits fun j hj => ?_⟩
  rw [hpay a ha j hj, hslots _ (by omega), framedBit_payload s a hj]

/-- Settles O24: a successful EMBED leaves the framed bitstream in the slots of every grid with its geometry and cells,
and EXTRACT recovers the payload from it. -/
theorem embedThenExtractRecoversThePayload : Obligations.EmbedThenExtractRecoversThePayload := by
  intro s t u ht he hcfg hw hh hch hpix
  obtain ⟨hg, hl, hp, hc, hslots⟩ := embed_success ht he
  obtain ⟨hchan, hcap, hgeo⟩ := grid_congr hcfg hw hh hch
  refine ⟨_, exec_eq _ u, extract_of_framed (hgeo.trans hg) hl (by rwa [hcfg]) (by rwa [hcap]) (fun k hk => ?_)
    (exec_eq _ u)⟩
  rw [State.slotLsb, hchan, hpix, hslots k hk]

/-! ## What EXTRACT reads -/

/-- The checks that an EXTRACT without an error has passed (rule R171). -/
theorem planExtract_checks {h : Held} (hp : plan .extract s = .ok h) :
    geometryOk s = true ∧ 32 + 8 * hdrValue (collect s) ≤ capacity s ∧ hdrValue (collect s) ≤ s.cfg.paySize := by
  rcases plan_ok_cases hp with ⟨⟨⟩, -⟩ | ⟨⟨⟩, -⟩ | ⟨⟨⟩, -⟩ | ⟨⟨⟩, -⟩ | ⟨⟨⟩, -⟩ |
    ⟨_, ⟨⟨⟩, -⟩ | ⟨-, hg, rfl⟩, hm, hpay, -⟩
  rw [length_collect] at hm
  exact ⟨hg, hm, hpay⟩

/-- The error that framed bits raise is decided by their number and, where they reach it, by their header. -/
theorem planPayload_error_congr {c : Config} {a b : Bits} {e : ErrCode} (hl : b.length = a.length)
    (hv : 32 ≤ a.length → hdrValue b = hdrValue a) (h : planPayload c a = .error e) : planPayload c b = .error e := by
  by_cases h32 : 32 ≤ a.length
  · rcases planPayload_error h with ⟨rfl, hm⟩ | ⟨rfl, hm, hp⟩
    · exact planPayload_corrupt (.inr (by rw [hl, hv h32]; exact hm))
    · exact planPayload_bounds (by rw [hl, hv h32]; exact hm) (by rw [hv h32]; exact hp)
  · rw [planPayload_corrupt (.inl (by omega))] at h ⊢
    exact h

/-- EXTRACT raises one error in grids of one geometry with one header. -/
theorem planExtract_error_congr {e : ErrCode} (hcfg : s'.cfg = s.cfg) (hg : geometryOk s' = geometryOk s)
    (hc : capacity s' = capacity s) (hv : 32 ≤ capacity s → hdrValue (collect s') = hdrValue (collect s))
    (h : planExtract s = .error e) : planExtract s' = .error e := by
  cases hgeo : geometryOk s with
  | false => rwa [planExtract_geometry (hg.trans hgeo), ← planExtract_geometry hgeo]
  | true =>
    rw [planExtract_eq hgeo] at h
    rw [planExtract_eq (hg.trans hgeo), hcfg]
    exact planPayload_error_congr (by rw [length_collect, length_collect, hc]) (by rwa [length_collect]) h

/-- Settles O25: the two grids state one header, so one check fails in both or all pass in both; a byte is its slots'
LSBs. -/
theorem extractSeesOnlyTheSlotsItNeeds : Obligations.ExtractSeesOnlyTheSlotsItNeeds := by
  intro s s' t t' hcfg hw hh hch hlsb ht ht'
  obtain ⟨-, hcap, hgeo⟩ := grid_congr hcfg hw hh hch
  have hv (h32 : 32 ≤ capacity s) : hdrValue (collect s') = hdrValue (collect s) :=
    hdrValue_collect_congr hcap h32 fun k hk => hlsb k hk (Nat.lt_of_lt_of_le hk h32)
  rcases exec_cases ht with ⟨h, hp, -⟩ | ⟨e, hp, rfl⟩
  · obtain ⟨hg, hm, hpay⟩ := planExtract_checks hp
    obtain ⟨hframe, hout, hhdr, hbits, -⟩ := extract_ok hg rfl hm hpay ht
    obtain ⟨hframe', hout', hhdr', hbits', -⟩ :=
      extract_ok (hgeo.trans hg) (hv (by omega)) (by rw [hcap]; exact hm) (by rw [hcfg]; exact hpay) ht'
    refine ⟨by rw [hframe', hframe]; rfl, fun _ => ⟨BitVec.eq_of_toNat_eq (hout'.trans hout.symm),
      BitVec.eq_of_toNat_eq (hhdr'.trans hhdr.symm), fun i hi hslots => byte_eq_of_bits fun j hj => ?_⟩⟩
    rw [hout] at hi
    rw [hbits' i hi j hj, hbits i hi j hj, hslots j hj]
  · rw [exec_of_error (i := .extract) (planExtract_error_congr hcfg hgeo hcap hv hp)] at ht'
    cases ht'
    exact ⟨rfl, fun he => absurd (hp.trans (congrArg _ he)) (plan_ne_error_ok .extract s)⟩

end Sys2Proof.Machine
end

section
/-! O7, O9 and O33: no step stops the block, which codes a command can complete with (60_exceptions.md rules R190, R197 and
R199), and the interrupt output over a step (rule R195). -/

namespace Sys2Proof.Machine

variable {s t : State}

/-! ## Every step answers -/

/-- The engine's turn has an answer whether its completion step is enabled or not (70_reset_and_hazards.md rule R229). -/
theorem exists_engineTurn_next (s : State) : ∃ t, engineTurn s = .next t := by
  cases hr : s.rst with
  | true => exact ⟨s, by simp [engineTurn, hr]⟩
  | false =>
    cases he : s.eng with
    | idle => exact ⟨s, engineTurn_idle he⟩
    | busy w =>
      obtain ⟨r, h, -⟩ := completeWord_eq w s
      exact ⟨_, (engineTurn_busy hr he).trans h⟩

/-- Settles O7: a step is the engine's turn or an input of the host, and both answer. -/
theorem everyStepAnswersANextState : Obligations.EveryStepAnswersANextState := by
  intro s
  by_cases hp : s.pending = [] ∨ ∃ rest, s.pending = .engine :: rest
  · rw [step_engine hp]
    exact exists_engineTurn_next (dropInput s)
  · obtain ⟨i, rest, hi⟩ := List.exists_cons_of_ne_nil fun h => hp (.inl h)
    exact ⟨_, step_host hi fun he => hp (.inr ⟨rest, he ▸ hi⟩)⟩

/-! ## The codes a command raises -/

/-- The codes of a command's checks, in the order of the checks: the raised-by column of rule R190, by command. -/
def checkCodes : Instr → List ErrCode
  | .bytes2bits => [.bounds]
  | .bits2bytes => [.bounds, .framing, .bounds]
  | .setlsb => []
  | .frame => [.tooLarge, .bounds]
  | .unframe => [.bounds, .corrupt, .bounds]
  | .embed => [.geometry, .tooLarge, .bounds, .capacity]
  | .extract => [.geometry, .corrupt, .bounds]

/-- An error comes from the first check, or from what follows it where it passes. -/
theorem mem_codes_of_check {α : Type} {c : Prop} [Decidable c] {e e' : ErrCode} {es : List ErrCode}
    {r : Except ErrCode α} (h : (if c then .error e' else r) = .error e) (hr : ¬c → r = .error e → e ∈ es) :
    e ∈ e' :: es := by
  by_cases hc : c
  · rw [if_pos hc] at h
    cases h
    exact List.mem_cons_self
  · rw [if_neg hc] at h
    exact List.mem_cons_of_mem e' (hr hc h)

/-- A payload that has passed the check of its length raises nothing more (41_framer.md rule R132). -/
theorem frameBits_map_ne_error {e : ErrCode} {f : Bits → Held} (hl : ¬Config.maxLen < s.lenNat) :
    (frameBits (memRead s.payAt s.lenNat)).map f ≠ .error e := by
  rw [frameBits_ok (by rw [length_memRead]; exact Nat.not_lt.mp hl)]
  rintro ⟨⟩

theorem mem_codes_of_planPayload {c : Config} {bits : Bits} {e : ErrCode} (h : planPayload c bits = .error e) :
    e ∈ [.corrupt, .bounds] := by
  rcases planPayload_error h with ⟨rfl, -⟩ | ⟨rfl, -⟩ <;> decide

/-- A plan raises the code of one of its command's checks. -/
theorem plan_error_mem_checkCodes {i : Instr} {e : ErrCode} (h : plan i s = .error e) : e ∈ checkCodes i := by
  cases i with
  | bytes2bits => exact mem_codes_of_check h fun _ h => nomatch h
  | bits2bytes =>
    refine mem_codes_of_check h fun _ h => mem_codes_of_check h fun h8 h => mem_codes_of_check h fun _ h => ?_
    rw [bitsToBytes_ok (by simpa using h8)] at h
    cases h
  | setlsb => cases h
  | frame =>
    exact mem_codes_of_check h fun hl h => mem_codes_of_check h fun _ h => absurd h (frameBits_map_ne_error hl)
  | unframe => exact mem_codes_of_check h fun _ => mem_codes_of_planPayload
  | embed =>
    exact mem_codes_of_check h fun _ h => mem_codes_of_check h fun hl h => mem_codes_of_check h fun _ h =>
      mem_codes_of_check h fun _ h => absurd h (frameBits_map_ne_error hl)
  | extract => exact mem_codes_of_check h fun _ => mem_codes_of_planPayload

/-- A completion's code is that of success or of one of the command's checks. -/
theorem exec_err_mem {i : Instr} (h : exec i s = .next t) : t.err ∈ .ok :: checkCodes i := by
  rcases exec_cases h with ⟨hd, -, rfl⟩ | ⟨e, hp, rfl⟩
  · exact List.mem_cons_self
  · exact List.mem_cons_of_mem _ (plan_error_mem_checkCodes hp)

/-- Settles O9: each clause is a finite fact about the lists of the seven commands' codes. -/
theorem errorCodesAreThoseOfTheTable : Obligations.ErrorCodesAreThoseOfTheTable := by
  refine ⟨by decide, fun i s t h => ?_⟩
  have hmem := exec_err_mem h
  generalize t.err = e at hmem ⊢
  revert e
  cases i <;> decide

/-! ## The interrupt output -/

theorem irq_iff (s : State) : irq s = true ↔ s.done = true ∧ s.doneIe = true := Bool.and_eq_true_iff

theorem irq_of_not_done (h : t.done = false) : irq t = false := by rw [irq, h, Bool.false_and]

theorem irq_of_not_doneIe (h : t.doneIe = false) : irq t = false := by rw [irq, h, Bool.and_false]

/-- Every completion sets DONE and leaves INTEN. -/
theorem irq_complete (r : Except ErrCode Held) (s : State) : irq (complete r s) = s.doneIe := by
  rw [irq, (complete_status r s).2, Bool.true_and, complete_frame]

theorem step_inten_write {off : BitVec 8} {v : Word} {rest : List Input} (hs : step s = .next t)
    (hp : s.pending = .wr off v :: rest) (hr : s.rst = false) (ho : off &&& 0xFC#8 = 0x0C#8) :
    t.doneIe = v.getLsbD 0 := by
  rw [step_wr hs hp hr (ofOffset_of_offset (r := .inten) ho), writeReg_of_not_guarded rfl]
  rfl

/-- Settles O33: each falling event clears DONE or DONE_IE. -/
theorem irqRisesAtCompletionAndFalls : Obligations.IrqRisesAtCompletionAndFalls := by
  refine ⟨irq_iff, fun s t w h hs => ?_, fun s t off v hr hh hs => ?_, fun s t hh hs => ?_⟩
  · obtain ⟨r, rfl⟩ := step_aboutToComplete h hs
    exact irq_complete r (dropInput s)
  · obtain ⟨rest, hp⟩ := List.head?_eq_some_iff.mp hh
    refine ⟨fun ho hv => irq_of_not_done ?_, fun ho hb => irq_of_not_done ?_, fun ho hv => irq_of_not_doneIe ?_⟩
    · rw [(step_status_write hs hp hr ho).1, hv, Bool.not_true, Bool.and_false]
    · exact (step_cmd_write hs hp hr hb ho).2
    · exact (step_inten_write hs hp hr ho).trans hv
  · obtain ⟨rest, hp⟩ := List.head?_eq_some_iff.mp hh
    rw [step_rstOn hs hp]
    exact irq_of_not_done rfl

end Sys2Proof.Machine
end

section
/-! O40, O41 and O44: what the assertion of `rst` leaves of memory (70_reset_and_hazards.md rule R221), what an input does
while `rst` is held (rule R220), and the completion of a command after any inputs but a reset (rule R229). -/

namespace Sys2Proof.Machine

variable {s t u : State} {i : Instr} {w : Word}

/-! ## The completion of an accepted command -/

/-- An input other than a reset leaves a running command as it was. -/
theorem hostTurn_busy_running {x : Input} (hx : x ≠ .rstOn) (hr : s.rst = false) (he : s.eng = .busy w) :
    (hostTurn x s).rst = false ∧ (hostTurn x s).eng = .busy w ∧ (hostTurn x s).pending = s.pending := by
  obtain ⟨⟨d, e, v, r, l, h⟩, -, hrst⟩ := hostTurn_busy hx (busy_of_eng he)
  exact ⟨hrst hr, by rw [h, he], by rw [h]⟩

/-- The inputs to come are taken one by one, until the engine's turn is next: at the latest when none is left. -/
theorem exists_run_aboutToComplete {xs : List Input} (hr : s.rst = false) (he : s.eng = .busy w) (hp : s.pending = xs)
    (hn : Input.rstOn ∉ xs) : ∃ k t, k ≤ xs.length ∧ Sys2Proof.core.run k s = .next t ∧ t.aboutToComplete w := by
  induction xs generalizing s with
  | nil => exact ⟨0, s, Nat.le_refl 0, rfl, hr, he, .inl hp⟩
  | cons x xs ih =>
    obtain ⟨hx, hxs⟩ := List.ne_and_not_mem_of_not_mem_cons hn
    by_cases hxe : x = .engine
    · exact ⟨0, s, Nat.zero_le _, rfl, hr, he, .inr ⟨xs, hxe ▸ hp⟩⟩
    · obtain ⟨hr', he', hp'⟩ := hostTurn_busy_running (s := dropInput s) (Ne.symm hx) hr he
      rw [dropInput_pending, hp, List.tail_cons] at hp'
      obtain ⟨k, t, hk, hrun, ht⟩ := ih hr' he' hp' hxs
      exact ⟨k + 1, t, Nat.succ_le_succ hk, (run_succ (step_host hp hxe) k).trans hrun, ht⟩

/-- Settles O44: the inputs before the engine's turn leave the command running, and its completion step then completes
it. -/
theorem acceptedCommandCompletes : Obligations.AcceptedCommandCompletes := by
  intro s w hr he hn
  obtain ⟨k, t, hk, hrun, ht⟩ := exists_run_aboutToComplete hr he rfl hn
  obtain ⟨r, hs⟩ := step_completes ht
  obtain ⟨heng, hdone⟩ := complete_status r (dropInput t)
  exact ⟨k, t, _, hk, hrun, ht, hs, (not_busy_iff _).mpr heng, hdone⟩

/-! ## A held reset -/

theorem idle_of_resetRegisters (h : resetRegisters s = s) : s.eng = .idle := by
  rw [← h, resetRegisters_eng]

/-- Asserting `rst` while it is held changes nothing. -/
theorem assertRst_held (hr : s.rst = true) (h : resetRegisters s = s) : assertRst s = s := by
  rw [assertRst, resetMemory_idle (idle_of_resetRegisters h), h, ← hr]

/-- While `rst` is held an input other than its release is recorded at most. -/
theorem hostTurn_held {x : Input} (hx : x ≠ .rstOff) (hr : s.rst = true) (h : resetRegisters s = s) :
    hostTurn x s = { s with log := (hostTurn x s).log } := by
  cases x with
  | wr off v => rw [hostTurn_wr_held hr]; rfl
  | wrm sp a v => rw [hostTurn_wrm_held hr]; rfl
  | rstOn => rw [hostTurn, assertRst_held hr h]
  | rstOff => exact absurd rfl hx
  | rd | rdm | engine => rfl

theorem engineTurn_held (hr : s.rst = true) : engineTurn s = .next s := by
  simp [engineTurn, hr]

/-- While `rst` is held a step takes its input and changes nothing but the log. -/
theorem step_held (hr : s.rst = true) (h : resetRegisters s = s) (hs : step s = .next t)
    (hp : s.pending.head? ≠ some .rstOff) : t = { s with pending := t.pending, log := t.log } := by
  have engine : engineTurn (dropInput s) = .next t → t = { s with pending := t.pending, log := t.log } := by
    rw [engineTurn_held (s := dropInput s) hr]
    rintro ⟨⟩
    rfl
  rcases step_cases hs with ⟨-, ht⟩ | ⟨rest, -, ht⟩ | ⟨x, rest, hx, -, rfl⟩
  · exact engine ht
  · exact engine ht
  · have hne : x ≠ .rstOff := by rintro rfl; simp [hx] at hp
    rw [hostTurn_held (s := dropInput s) hne hr (congrArg dropInput h)]
    rfl

/-- Registers at their reset values read as after power-on, whatever the memories hold. -/
theorem readReg_resetRegisters (s : State) (r : Reg) :
    readReg (resetRegisters s) r = readReg (State.poweredOn s.cfg) r := by
  cases r <;> rfl

/-- The register port under a held reset (rule R220). -/
theorem hostRead_held (hr : s.rst = true) (off : BitVec 8) :
    hostRead off s = portRead off (State.poweredOn s.cfg) := by
  rw [hostRead, if_pos hr, portRead, portRead]
  cases Reg.ofOffset off with
  | none => rfl
  | some r => exact readReg_resetRegisters s r

theorem cellNat_dropInput (sp : Space) (a : Nat) (s : State) : cellNat sp a (dropInput s) = cellNat sp a s := by
  cases sp <;> rfl

/-- The memory port's read where no command runs (20_memory.md rule R61). -/
theorem memPortRead_idle (hb : s.busy = false) (sp : Space) (a : Nat) :
    memPortRead sp a s = if a < s.cfg.size sp then cellNat sp a s else 0 := by
  split
  · next h => exact memPortRead_of_idle hb h
  · next h => exact memPortRead_of_outside (Nat.not_lt.mp h)

/-- Settles O41: the invariant has the registers at their reset values and the engine idle. -/
theorem heldResetBlocksTheHost : Obligations.HeldResetBlocksTheHost := by
  intro s t hr hinv hs hh
  have hreset : resetRegisters s = s := hinv.held hr
  have hb : s.busy = false := (not_busy_iff s).mpr (idle_of_resetRegisters hreset)
  refine ⟨step_held hr hreset hs hh, fun off rest hp => ?_, fun sp a rest hp => ?_⟩
  · rw [host_next hp (by simp) hs, hostTurn, record_log, hostRead_held (s := dropInput s) hr]
    rfl
  · rw [host_next hp (by simp) hs, hostTurn, record_log, memPortRead_idle (s := dropInput s) hb, cellNat_dropInput]
    rfl

/-! ## The memories after a reset -/

/-- A memory with the listed cells redrawn from `f`, as `abandon` redraws an abandoned command's write set. -/
def Memory.redraw {α : Type} (m : Memory α) (cs : List (Nat × α)) (f : Nat → α) : Memory α :=
  Memory.writeAll m (cs.map fun c => (c.1, f c.1))

@[simp] theorem Memory.redraw_nil {α : Type} (m : Memory α) (f : Nat → α) : Memory.redraw m [] f = m := rfl

theorem Memory.find_redraw_other {α : Type} (m : Memory α) {cs : List (Nat × α)} (f : Nat → α) {a : Nat}
    (h : ∀ c ∈ cs, c.1 ≠ a) : Memory.find (Memory.redraw m cs f) a = Memory.find m a := by
  rw [Memory.redraw, Memory.find_writeAll, find_redrawn_none h, Option.none_or]

theorem heldOf_of_decode_error {e : DecodeError} (hd : decode w = .error e) (s : State) : heldOf w s = {} := by
  rw [heldOf, hd]

theorem heldOf_of_plan_ok {h : Held} (hd : decode w = .ok i) (hp : plan i s = .ok h) : heldOf w s = h := by
  simp only [heldOf, hd, hp]

theorem heldOf_of_plan_error {e : ErrCode} (hd : decode w = .ok i) (hp : plan i s = .error e) : heldOf w s = {} := by
  simp only [heldOf, hd, hp]

/-- An abandoned command's held writes by how it would have completed. -/
theorem heldOf_cases (hd : decode w = .ok i) (hx : exec i s = .next u) :
    (plan i s = .ok (heldOf w s) ∧ u = completeOk (heldOf w s) s) ∨ (u.err ≠ .ok ∧ heldOf w s = {}) := by
  rcases exec_cases hx with ⟨h, hp, hu⟩ | ⟨e, hp, rfl⟩
  · have hh := heldOf_of_plan_ok hd hp
    exact .inl ⟨hh ▸ hp, hh ▸ hu⟩
  · have he : e ≠ .ok := by rintro rfl; exact plan_ne_error_ok i s hp
    exact .inr ⟨he, heldOf_of_plan_error hd hp⟩

theorem heldOf_dropInput (w : Word) (s : State) : heldOf w (dropInput s) = heldOf w s := by
  unfold heldOf
  cases decode w with
  | error e => rfl
  | ok i =>
    have hp : plan i (dropInput s) = plan i s := plan_congr i rfl rfl rfl rfl rfl rfl rfl rfl rfl rfl
    simp only [hp]

theorem step_reset_idle (hh : s.pending.head? = some .rstOn) (hs : step s = .next t) (hb : s.busy = false) :
    t.pix = s.pix ∧ t.pay = s.pay ∧ t.bit = s.bit := by
  obtain ⟨rest, hp⟩ := List.head?_eq_some_iff.mp hh
  rw [step_rstOn hs hp, assertRst, resetMemory_idle (s := dropInput s) ((not_busy_iff s).mp hb)]
  exact ⟨rfl, rfl, rfl⟩

/-- A reset redraws the cells of the running command's held writes, and no other. -/
theorem step_reset_busy (hh : s.pending.head? = some .rstOn) (hs : step s = .next t) (he : s.eng = .busy w) :
    t.pix = Memory.redraw s.pix (heldOf w s).pix (Config.freeByte s.draws) ∧
    t.pay = Memory.redraw s.pay (heldOf w s).pay (Config.freeByte s.draws) ∧
    t.bit = Memory.redraw s.bit (heldOf w s).bit (Config.freeBit s.draws) := by
  obtain ⟨rest, hp⟩ := List.head?_eq_some_iff.mp hh
  rw [step_rstOn hs hp, assertRst, resetMemory_busy (s := dropInput s) he, ← heldOf_dropInput]
  exact ⟨rfl, rfl, rfl⟩

theorem step_reset_no_cells (hh : s.pending.head? = some .rstOn) (hs : step s = .next t) (he : s.eng = .busy w)
    (hpix : (heldOf w s).pix = []) (hpay : (heldOf w s).pay = []) (hbit : (heldOf w s).bit = []) :
    t.pix = s.pix ∧ t.pay = s.pay ∧ t.bit = s.bit := by
  obtain ⟨h1, h2, h3⟩ := step_reset_busy hh hs he
  rw [h1, h2, h3, hpix, hpay, hbit]
  exact ⟨rfl, rfl, rfl⟩

theorem step_reset_no_writes (hh : s.pending.head? = some .rstOn) (hs : step s = .next t) (he : s.eng = .busy w)
    (h : heldOf w s = {}) : t.pix = s.pix ∧ t.pay = s.pay ∧ t.bit = s.bit :=
  step_reset_no_cells hh hs he (congrArg Held.pix h) (congrArg Held.pay h) (congrArg Held.bit h)

/-- The cells outside the write set of rule R221, where OUTCNT is what the command would have written. -/
theorem step_reset_outside_writeSet (hh : s.pending.head? = some .rstOn) (hs : step s = .next t) (he : s.eng = .busy w)
    (hw : s.cfg.wf = true) (hp : plan i s = .ok (heldOf w s)) {n : Nat}
    (hn : (completeOk (heldOf w s) s).outcnt.toNat = n) :
    (∀ a, n ≤ a → t.bitAt a = s.bitAt a) ∧ (∀ a, n ≤ a → t.payAt a = s.payAt a) ∧
      ∀ a, (∀ k < n, a ≠ slotAddr s.chan k) → t.pixAt a = s.pixAt a := by
  obtain ⟨hpix, hpay, hbit⟩ := step_reset_busy hh hs he
  obtain ⟨cbit, cpay, cpix⟩ := plan_writeSet hw hp
  rw [← completeOk_outcnt, hn] at cbit cpay cpix
  refine ⟨fun a ha => ?_, fun a ha => ?_, fun a ha => ?_⟩
  · rw [State.bitAt, hbit, Memory.find_redraw_other _ _ fun c hc => ?_, State.bitAt]
    exact Nat.ne_of_lt (Nat.lt_of_lt_of_le (cbit c hc) ha)
  · rw [State.payAt, hpay, Memory.find_redraw_other _ _ fun c hc => ?_, State.payAt]
    exact Nat.ne_of_lt (Nat.lt_of_lt_of_le (cpay c hc) ha)
  · rw [State.pixAt, hpix, Memory.find_redraw_other _ _ fun c hc => ?_, State.pixAt]
    obtain ⟨k, hk, hck⟩ := cpix c hc
    exact fun hca => ha k hk (hca.symm.trans hck)

/-- Settles O40: the redrawn cells are those of the plan, which lie in the spaces of the opcode map and in the write set. -/
theorem resetKeepsMemoryOutsideTheWriteSet : Obligations.ResetKeepsMemoryOutsideTheWriteSet := by
  intro s t hh hs
  refine ⟨step_reset_idle hh hs, fun w he => ⟨fun ⟨e, hd⟩ => ?_, fun i u hd hx => ?_⟩⟩
  · exact step_reset_no_writes hh hs he (heldOf_of_decode_error hd s)
  rcases heldOf_cases hd hx with ⟨hp, rfl⟩ | ⟨herr, h0⟩
  · obtain ⟨hpix, hpay, hbit⟩ := step_reset_busy hh hs he
    obtain ⟨wpix, wpay, wbit, -⟩ := plan_ok_writes hp
    refine ⟨fun h => ?_, fun h => ?_, fun h1 h2 h3 => ?_, fun h1 h2 => ?_, fun _ hw => ?_⟩
    · obtain rfl : i = .setlsb := h.resolve_left fun h => h rfl
      exact step_reset_no_cells hh hs he (wpix nofun) (wpay nofun nofun nofun) (wbit nofun nofun)
    · rw [hpix, wpix h, Memory.redraw_nil]
    · rw [hpay, wpay h1 h2 h3, Memory.redraw_nil]
    · rw [hbit, wbit h1 h2, Memory.redraw_nil]
    · obtain ⟨kbit, kpay, kpix⟩ := step_reset_outside_writeSet hh hs he hw hp rfl
      exact ⟨fun _ => kbit, fun _ => kpay, fun _ => kpix⟩
  · obtain ⟨hpix, hpay, hbit⟩ := step_reset_no_writes hh hs he h0
    exact ⟨fun _ => ⟨hpix, hpay, hbit⟩, fun _ => hpix, fun _ _ _ => hpay, fun _ _ => hbit, fun he => absurd he herr⟩

end Sys2Proof.Machine
end
